-- ==== Sys2Proof/Word.lean ====
section
/-! DEFINITION. The word types of the CHIP-8 block (spec/00_scope.md R8, R9, R10, R13) and their plainest arithmetic. -/

namespace Sys2Proof

/-- A general register, a memory byte or a timer: 8 bits, unsigned (R10). -/
abbrev Byte := BitVec 8

/-- The index register, the program counter, a stack entry: 16 bits, unsigned (R10, R24, R25). -/
abbrev Word := BitVec 16

/-- A raw instruction code: 16 bits (R90). -/
abbrev Code := BitVec 16

/-- The fields X and Y: 4-bit register selectors (R13, R91). -/
abbrev Reg := BitVec 4

/-- The field N: a 4-bit immediate (R91). -/
abbrev Nibble := BitVec 4

/-- The field NNN: a 12-bit address (R91). -/
abbrev Addr12 := BitVec 12

/-- `VF`, the sixteenth general register (R11). -/
abbrev Reg.vf : Reg := 15#4

/-- `V0`, the first general register (R11). -/
abbrev Reg.v0 : Reg := 0#4

/-- `zext_16(NNN)` (R10, R92). -/
abbrev zext16 {n : Nat} (a : BitVec n) : Word := a.setWidth 16

end Sys2Proof
end

