-- ==== Sys2Proof/Config.lean ====
section
/-! DEFINITION. The implementation parameters of spec/00_scope.md R8 that the spec lets a model take as named arguments,
and the free values. What each parameter's value IS in this model stands in Sys2Proof/Machine/Defaults.lean. -/

namespace Sys2Proof

/-- `DRAW_EDGE` (R213, D7): what becomes of a sprite pixel past the display's edge. -/
inductive DrawEdge where
  | wrap
  | clip
  deriving DecidableEq, Repr

/-- `DATA_OOB` (R62, R63, D3): a data access above 0xFFF. -/
inductive DataOob where
  | fault
  | wrap
  deriving DecidableEq, Repr

/-- `GLYPH_WRITE` (R63, D4): an instruction's write into the glyph region. -/
inductive GlyphWrite where
  | ignore
  | fault
  deriving DecidableEq, Repr

/-- `KEY_INDEX_OOB` (R236, D9): a key skip whose register holds a value above 15. -/
inductive KeyIndexOob where
  | fault
  | lowNibble
  deriving DecidableEq, Repr

/-- The parameters of R8 that change what an instruction does. -/
structure Params where
  drawEdge : DrawEdge
  dataOob : DataOob
  glyphWrite : GlyphWrite
  keyIndexOob : KeyIndexOob
  /-- `ADD_I_SETS_VF` (R182, D8) -/
  addISetsVf : Bool
  /-- `DECODE_5_9_IGNORE_N` (R94, D10) -/
  decode59IgnoreN : Bool
  /-- `GLYPH_ROM` (R27, D19): 80 bytes -/
  glyphRom : List Byte
  deriving DecidableEq, Repr

/-- `RANDOM` (R163, D11): the byte of the k-th draw. A FREE VALUE: it has no body, so nothing in Lean can evaluate it and
whatever is proved holds for every oracle. -/
opaque Config.randomByte : Nat → Byte

end Sys2Proof
end

