-- ==== Sys2Proof/Machine/Defaults.lean ====
section
/-! DEFINITION. The values this model gives the parameters of spec/00_scope.md R8: the spec's own defaults
(notes/assumptions/3.md to 9.md), and what a byte of memory reads as at reset. -/

namespace Sys2Proof.Machine

/-- The default `GLYPH_ROM`: 16 glyphs of 5 bytes, one row per hexadecimal digit (R27, D19). -/
def glyphRom : List Byte :=
  [0xF0, 0x90, 0x90, 0x90, 0xF0] ++
  [0x20, 0x60, 0x20, 0x20, 0x70] ++
  [0xF0, 0x10, 0xF0, 0x80, 0xF0] ++
  [0xF0, 0x10, 0xF0, 0x10, 0xF0] ++
  [0x90, 0x90, 0xF0, 0x10, 0x10] ++
  [0xF0, 0x80, 0xF0, 0x10, 0xF0] ++
  [0xF0, 0x80, 0xF0, 0x90, 0xF0] ++
  [0xF0, 0x10, 0x20, 0x40, 0x40] ++
  [0xF0, 0x90, 0xF0, 0x90, 0xF0] ++
  [0xF0, 0x90, 0xF0, 0x10, 0xF0] ++
  [0xF0, 0x90, 0xF0, 0x90, 0x90] ++
  [0xE0, 0x90, 0xE0, 0x90, 0xE0] ++
  [0xF0, 0x80, 0x80, 0x80, 0xF0] ++
  [0xE0, 0x90, 0x90, 0x90, 0xE0] ++
  [0xF0, 0x80, 0xF0, 0x80, 0xF0] ++
  [0xF0, 0x80, 0xF0, 0x80, 0x80]

/-- The parameters of this model: every default of R8. -/
def params : Params where
  drawEdge := .wrap
  dataOob := .fault
  glyphWrite := .ignore
  keyIndexOob := .fault
  addISetsVf := true
  decode59IgnoreN := false
  glyphRom := glyphRom

/-- The size of the address space, `MEM_SIZE` (R8, R60). -/
def memSize : Nat := 4096

/-- The end of the glyph region: addresses below it hold the glyph table (R61). -/
def glyphEnd : Nat := 0x50

/-- The entry point, `ENTRY` (R8, R70): where a program is loaded and where reset sets `pc`. -/
def entry : Word := 0x200#16

/-- The longest program `load` takes, `MAX_PROGRAM`: 4096 − 0x200 (R8, R313; 90_conflicts.md C1). -/
def maxProgram : Nat := 3584

/-- What an address reads as when memory lists nothing for it: the contents R311 gives memory at reset, the glyph table
at 0x000–0x04F and zero above it (R40; notes/assumptions/12.md). -/
def unlistedByte (a : Nat) : Byte := glyphRom.getD a 0

end Sys2Proof.Machine
end

