-- ==== Sys2Proof/Syntax.lean ====
section
/-! DEFINITION. The syntax of the 34 instructions: one constructor per row of spec/opcode_table.json, in the table's
order (spec/30_encoding.md R95). The fields are those of R91; a register selector is a number of 4 bits, so every one of
its 16 values names a register (R93). -/

namespace Sys2Proof

/-- The base instruction set (R95). The comment after each constructor is its pattern. -/
inductive Instr where
  | cls                                -- 00E0
  | ret                                -- 00EE
  | jp (nnn : Addr12)                  -- 1NNN
  | call (nnn : Addr12)                -- 2NNN
  | seImm (x : Reg) (nn : Byte)        -- 3XNN
  | sneImm (x : Reg) (nn : Byte)       -- 4XNN
  | seReg (x y : Reg)                  -- 5XY0
  | ldImm (x : Reg) (nn : Byte)        -- 6XNN
  | addImm (x : Reg) (nn : Byte)       -- 7XNN
  | ldReg (x y : Reg)                  -- 8XY0
  | orReg (x y : Reg)                  -- 8XY1
  | andReg (x y : Reg)                 -- 8XY2
  | xorReg (x y : Reg)                 -- 8XY3
  | addReg (x y : Reg)                 -- 8XY4
  | subReg (x y : Reg)                 -- 8XY5
  | shr (x y : Reg)                    -- 8XY6
  | subnReg (x y : Reg)                -- 8XY7
  | shl (x y : Reg)                    -- 8XYE
  | sneReg (x y : Reg)                 -- 9XY0
  | ldI (nnn : Addr12)                 -- ANNN
  | jpV0 (nnn : Addr12)                -- BNNN
  | rnd (x : Reg) (nn : Byte)          -- CXNN
  | drw (x y : Reg) (n : Nibble)       -- DXYN
  | skp (x : Reg)                      -- EX9E
  | sknp (x : Reg)                     -- EXA1
  | ldVxDt (x : Reg)                   -- FX07
  | ldVxK (x : Reg)                    -- FX0A
  | ldDtVx (x : Reg)                   -- FX15
  | ldStVx (x : Reg)                   -- FX18
  | addIVx (x : Reg)                   -- FX1E
  | ldFVx (x : Reg)                    -- FX29
  | ldBVx (x : Reg)                    -- FX33
  | ldIVx (x : Reg)                    -- FX55
  | ldVxI (x : Reg)                    -- FX65
  deriving DecidableEq, Repr

/-- A row of the opcode map (R95), named as the constructor of `Instr` that stands for it. -/
inductive Opcode where
  | cls | ret | jp | call | seImm | sneImm | seReg | ldImm | addImm
  | ldReg | orReg | andReg | xorReg | addReg | subReg | shr | subnReg | shl
  | sneReg | ldI | jpV0 | rnd | drw | skp | sknp
  | ldVxDt | ldVxK | ldDtVx | ldStVx | addIVx | ldFVx | ldBVx | ldIVx | ldVxI
  deriving DecidableEq, Repr

/-- Which fields of R91 a row uses: the formats of R102. -/
inductive Format where
  /-- no field: 00E0, 00EE -/
  | bare
  /-- NNN forms -/
  | nnn
  /-- XNN forms -/
  | xnn
  /-- 5XY0, 8XYn, 9XY0 -/
  | xy
  /-- DXYN -/
  | xyn
  /-- EX and FX forms -/
  | x
  deriving DecidableEq, Repr

/-- The row an instruction belongs to. -/
def Instr.opcode : Instr → Opcode
  | .cls => .cls
  | .ret => .ret
  | .jp _ => .jp
  | .call _ => .call
  | .seImm _ _ => .seImm
  | .sneImm _ _ => .sneImm
  | .seReg _ _ => .seReg
  | .ldImm _ _ => .ldImm
  | .addImm _ _ => .addImm
  | .ldReg _ _ => .ldReg
  | .orReg _ _ => .orReg
  | .andReg _ _ => .andReg
  | .xorReg _ _ => .xorReg
  | .addReg _ _ => .addReg
  | .subReg _ _ => .subReg
  | .shr _ _ => .shr
  | .subnReg _ _ => .subnReg
  | .shl _ _ => .shl
  | .sneReg _ _ => .sneReg
  | .ldI _ => .ldI
  | .jpV0 _ => .jpV0
  | .rnd _ _ => .rnd
  | .drw _ _ _ => .drw
  | .skp _ => .skp
  | .sknp _ => .sknp
  | .ldVxDt _ => .ldVxDt
  | .ldVxK _ => .ldVxK
  | .ldDtVx _ => .ldDtVx
  | .ldStVx _ => .ldStVx
  | .addIVx _ => .addIVx
  | .ldFVx _ => .ldFVx
  | .ldBVx _ => .ldBVx
  | .ldIVx _ => .ldIVx
  | .ldVxI _ => .ldVxI

/-- The format of a row (R95, R102). -/
def Opcode.format : Opcode → Format
  | .cls | .ret => .bare
  | .jp | .call | .ldI | .jpV0 => .nnn
  | .seImm | .sneImm | .ldImm | .addImm | .rnd => .xnn
  | .seReg | .ldReg | .orReg | .andReg | .xorReg | .addReg | .subReg | .shr | .subnReg | .shl | .sneReg => .xy
  | .drw => .xyn
  | .skp | .sknp | .ldVxDt | .ldVxK | .ldDtVx | .ldStVx | .addIVx | .ldFVx | .ldBVx | .ldIVx | .ldVxI => .x

/-- The operands of an instruction as an assembler line writes them, before any check: plain numbers (R100, R102).
A field its format does not use stays 0. -/
structure RawFields where
  x : Nat := 0
  y : Nat := 0
  n : Nat := 0
  nn : Nat := 0
  nnn : Nat := 0
  deriving DecidableEq, Repr

/-- An instruction as an assembler line writes it: a row and its operands as numbers (R100, R102). -/
structure RawInstr where
  opcode : Opcode
  fields : RawFields
  deriving DecidableEq, Repr

/-- The operands of an instruction as numbers. -/
def Instr.fields : Instr → RawFields
  | .cls | .ret => {}
  | .jp a | .call a | .ldI a | .jpV0 a => { nnn := a.toNat }
  | .seImm x b | .sneImm x b | .ldImm x b | .addImm x b | .rnd x b => { x := x.toNat, nn := b.toNat }
  | .seReg x y | .ldReg x y | .orReg x y | .andReg x y | .xorReg x y | .addReg x y | .subReg x y | .shr x y
  | .subnReg x y | .shl x y | .sneReg x y => { x := x.toNat, y := y.toNat }
  | .drw x y n => { x := x.toNat, y := y.toNat, n := n.toNat }
  | .skp x | .sknp x | .ldVxDt x | .ldVxK x | .ldDtVx x | .ldStVx x | .addIVx x | .ldFVx x | .ldBVx x | .ldIVx x
  | .ldVxI x => { x := x.toNat }

/-- An instruction as a raw line. -/
def Instr.toRaw (i : Instr) : RawInstr := ⟨i.opcode, i.fields⟩

end Sys2Proof
end

