-- ==== Sys2Proof/WellFormed.lean ====
section
/-! DEFINITION. When an instruction is well formed (spec/30_encoding.md R102): "Each field must fit its width: X, Y, N
in 0–15, NN in 0–255, NNN in 0–0xFFF; an assembler refuses a value that does not fit." The check is written for a raw
assembler line, where it can fail; an `Instr` carries its fields at their widths, so `Instr.wellFormed` holds of every
one (Sys2Proof/Laws/Decode.lean proves it). -/

namespace Sys2Proof

/-- X, Y and N fit in 4 bits (R102). -/
def fitsNibble (v : Nat) : Bool := decide (v < 16)

/-- NN fits in 8 bits (R102). -/
def fitsByte (v : Nat) : Bool := decide (v < 256)

/-- NNN fits in 12 bits (R102). -/
def fitsAddr (v : Nat) : Bool := decide (v < 4096)

/-- Each field the format uses fits its width (R102). -/
def RawFields.fit (f : RawFields) : Format → Bool
  | .bare => true
  | .nnn => fitsAddr f.nnn
  | .xnn => fitsNibble f.x && fitsByte f.nn
  | .xy => fitsNibble f.x && fitsNibble f.y
  | .xyn => fitsNibble f.x && fitsNibble f.y && fitsNibble f.n
  | .x => fitsNibble f.x

/-- A raw line is well formed when its operands fit (R102). -/
def RawInstr.wellFormed (r : RawInstr) : Bool := r.fields.fit r.opcode.format

/-- An instruction is well formed when its operands, as numbers, fit (R102). -/
def Instr.wellFormed (i : Instr) : Bool := i.toRaw.wellFormed

/-- The instruction a well-formed line stands for; `none` is the assembler's refusal (R102). -/
def RawInstr.toInstr (r : RawInstr) : Option Instr :=
  let x : Reg := BitVec.ofNat 4 r.fields.x
  let y : Reg := BitVec.ofNat 4 r.fields.y
  let n : Nibble := BitVec.ofNat 4 r.fields.n
  let nn : Byte := BitVec.ofNat 8 r.fields.nn
  let nnn : Addr12 := BitVec.ofNat 12 r.fields.nnn
  if r.wellFormed then
    some (match r.opcode with
      | .cls => .cls
      | .ret => .ret
      | .jp => .jp nnn
      | .call => .call nnn
      | .seImm => .seImm x nn
      | .sneImm => .sneImm x nn
      | .seReg => .seReg x y
      | .ldImm => .ldImm x nn
      | .addImm => .addImm x nn
      | .ldReg => .ldReg x y
      | .orReg => .orReg x y
      | .andReg => .andReg x y
      | .xorReg => .xorReg x y
      | .addReg => .addReg x y
      | .subReg => .subReg x y
      | .shr => .shr x y
      | .subnReg => .subnReg x y
      | .shl => .shl x y
      | .sneReg => .sneReg x y
      | .ldI => .ldI nnn
      | .jpV0 => .jpV0 nnn
      | .rnd => .rnd x nn
      | .drw => .drw x y n
      | .skp => .skp x
      | .sknp => .sknp x
      | .ldVxDt => .ldVxDt x
      | .ldVxK => .ldVxK x
      | .ldDtVx => .ldDtVx x
      | .ldStVx => .ldStVx x
      | .addIVx => .addIVx x
      | .ldFVx => .ldFVx x
      | .ldBVx => .ldBVx x
      | .ldIVx => .ldIVx x
      | .ldVxI => .ldVxI x)
  else none

end Sys2Proof
end

