-- ==== Sys2Proof/Decode.lean ====
section
/-! DEFINITION. Decoding and encoding (spec/30_encoding.md): the fields of R91, the decoder of R94, the opcode map of
R95 and the encoding function of R102. The decoder selects by family, as R94 says; the map's match and mask columns
stand beside it, and the encoder is written from them. -/

namespace Sys2Proof

/-- Why bytes decode to no instruction. -/
inductive Reject where
  /-- The code matches no row of the map (R97). -/
  | unknownOpcode (code : Code)
  /-- Fewer than two bytes: every instruction is exactly 2 bytes (R90, R99). -/
  | truncated
  deriving DecidableEq, Repr

/-! ### The fields of a code (R91) -/

/-- op, `c[15:12]`: the family selector. -/
def Code.op (c : Code) : Nibble := c.extractLsb' 12 4

/-- X, `c[11:8]`. -/
def Code.x (c : Code) : Reg := c.extractLsb' 8 4

/-- Y, `c[7:4]`. -/
def Code.y (c : Code) : Reg := c.extractLsb' 4 4

/-- N, `c[3:0]`. -/
def Code.n (c : Code) : Nibble := c.extractLsb' 0 4

/-- NN, `c[7:0]`. -/
def Code.nn (c : Code) : Byte := c.extractLsb' 0 8

/-- NNN, `c[11:0]`. -/
def Code.nnn (c : Code) : Addr12 := c.extractLsb' 0 12

/-! ### The decoder (R94, R97) -/

/-- Family 0, selected by the whole code. -/
def decodeFamily0 (c : Code) : Except Reject Instr :=
  if c = 0x00E0#16 then .ok .cls
  else if c = 0x00EE#16 then .ok .ret
  else .error (.unknownOpcode c)

/-- Family 8, selected by N. -/
def decodeFamily8 (c : Code) : Except Reject Instr :=
  match (Code.n c).toNat with
  | 0x0 => .ok (.ldReg (Code.x c) (Code.y c))
  | 0x1 => .ok (.orReg (Code.x c) (Code.y c))
  | 0x2 => .ok (.andReg (Code.x c) (Code.y c))
  | 0x3 => .ok (.xorReg (Code.x c) (Code.y c))
  | 0x4 => .ok (.addReg (Code.x c) (Code.y c))
  | 0x5 => .ok (.subReg (Code.x c) (Code.y c))
  | 0x6 => .ok (.shr (Code.x c) (Code.y c))
  | 0x7 => .ok (.subnReg (Code.x c) (Code.y c))
  | 0xE => .ok (.shl (Code.x c) (Code.y c))
  | _ => .error (.unknownOpcode c)

/-- Family E, selected by NN. -/
def decodeFamilyE (c : Code) : Except Reject Instr :=
  match (Code.nn c).toNat with
  | 0x9E => .ok (.skp (Code.x c))
  | 0xA1 => .ok (.sknp (Code.x c))
  | _ => .error (.unknownOpcode c)

/-- Family F, selected by NN. -/
def decodeFamilyF (c : Code) : Except Reject Instr :=
  match (Code.nn c).toNat with
  | 0x07 => .ok (.ldVxDt (Code.x c))
  | 0x0A => .ok (.ldVxK (Code.x c))
  | 0x15 => .ok (.ldDtVx (Code.x c))
  | 0x18 => .ok (.ldStVx (Code.x c))
  | 0x1E => .ok (.addIVx (Code.x c))
  | 0x29 => .ok (.ldFVx (Code.x c))
  | 0x33 => .ok (.ldBVx (Code.x c))
  | 0x55 => .ok (.ldIVx (Code.x c))
  | 0x65 => .ok (.ldVxI (Code.x c))
  | _ => .error (.unknownOpcode c)

/-- Families 5 and 9: they require N = 0 unless `DECODE_5_9_IGNORE_N` is true (R94, D10). -/
def decodeRegSkip (ignoreN : Bool) (c : Code) (i : Instr) : Except Reject Instr :=
  if ignoreN || Code.n c == 0#4 then .ok i else .error (.unknownOpcode c)

/-- The decoder under a value of `DECODE_5_9_IGNORE_N`: the high nibble selects the family (R94). -/
def decodeWith (ignoreN : Bool) (c : Code) : Except Reject Instr :=
  match (Code.op c).toNat with
  | 0x0 => decodeFamily0 c
  | 0x1 => .ok (.jp (Code.nnn c))
  | 0x2 => .ok (.call (Code.nnn c))
  | 0x3 => .ok (.seImm (Code.x c) (Code.nn c))
  | 0x4 => .ok (.sneImm (Code.x c) (Code.nn c))
  | 0x5 => decodeRegSkip ignoreN c (.seReg (Code.x c) (Code.y c))
  | 0x6 => .ok (.ldImm (Code.x c) (Code.nn c))
  | 0x7 => .ok (.addImm (Code.x c) (Code.nn c))
  | 0x8 => decodeFamily8 c
  | 0x9 => decodeRegSkip ignoreN c (.sneReg (Code.x c) (Code.y c))
  | 0xA => .ok (.ldI (Code.nnn c))
  | 0xB => .ok (.jpV0 (Code.nnn c))
  | 0xC => .ok (.rnd (Code.x c) (Code.nn c))
  | 0xD => .ok (.drw (Code.x c) (Code.y c) (Code.n c))
  | 0xE => decodeFamilyE c
  | 0xF => decodeFamilyF c
  | _ => .error (.unknownOpcode c)

/-- The decoder of this model: total on the 65536 codes (R94). -/
def decode (c : Code) : Except Reject Instr := decodeWith Machine.params.decode59IgnoreN c

/-- A code from its two bytes, big-endian: the byte at the lower address is the most significant (R64, R65). -/
def codeOfBytes (hi lo : Byte) : Code := hi ++ lo

/-- The decoder on a run of bytes: the instruction its first two bytes stand for, and the rest. -/
def decodeBytes : List Byte → Except Reject (Instr × List Byte)
  | hi :: lo :: rest =>
    match decode (codeOfBytes hi lo) with
    | .ok i => .ok (i, rest)
    | .error e => .error e
  | _ => .error .truncated

/-! ### The opcode map (R95) -/

/-- The match column of R95. -/
def Opcode.matchWord : Opcode → Code
  | .cls => 0x00E0
  | .ret => 0x00EE
  | .jp => 0x1000
  | .call => 0x2000
  | .seImm => 0x3000
  | .sneImm => 0x4000
  | .seReg => 0x5000
  | .ldImm => 0x6000
  | .addImm => 0x7000
  | .ldReg => 0x8000
  | .orReg => 0x8001
  | .andReg => 0x8002
  | .xorReg => 0x8003
  | .addReg => 0x8004
  | .subReg => 0x8005
  | .shr => 0x8006
  | .subnReg => 0x8007
  | .shl => 0x800E
  | .sneReg => 0x9000
  | .ldI => 0xA000
  | .jpV0 => 0xB000
  | .rnd => 0xC000
  | .drw => 0xD000
  | .skp => 0xE09E
  | .sknp => 0xE0A1
  | .ldVxDt => 0xF007
  | .ldVxK => 0xF00A
  | .ldDtVx => 0xF015
  | .ldStVx => 0xF018
  | .addIVx => 0xF01E
  | .ldFVx => 0xF029
  | .ldBVx => 0xF033
  | .ldIVx => 0xF055
  | .ldVxI => 0xF065

/-- The mask column of R95. -/
def Opcode.maskWord (o : Opcode) : Code :=
  match o.format with
  | .bare => 0xFFFF
  | .nnn | .xnn | .xyn => 0xF000
  | .xy => 0xF00F
  | .x => 0xF0FF

/-- A code matches a row: `c & mask_k == match_k` (R95). -/
def Opcode.matchesCode (o : Opcode) (c : Code) : Bool := c &&& o.maskWord == o.matchWord

/-! ### The encoder (R102) -/

/-- The operand bits of an instruction, each field at its place. -/
def Instr.operandBits : Instr → Code
  | .cls | .ret => 0
  | .jp a | .call a | .ldI a | .jpV0 a => zext16 a
  | .seImm x b | .sneImm x b | .ldImm x b | .addImm x b | .rnd x b => (zext16 x <<< 8) ||| zext16 b
  | .seReg x y | .ldReg x y | .orReg x y | .andReg x y | .xorReg x y | .addReg x y | .subReg x y | .shr x y
  | .subnReg x y | .shl x y | .sneReg x y => (zext16 x <<< 8) ||| (zext16 y <<< 4)
  | .drw x y n => (zext16 x <<< 8) ||| (zext16 y <<< 4) ||| zext16 n
  | .skp x | .sknp x | .ldVxDt x | .ldVxK x | .ldDtVx x | .ldStVx x | .addIVx x | .ldFVx x | .ldBVx x | .ldIVx x
  | .ldVxI x => zext16 x <<< 8

/-- The code of an instruction: `match | fields` (R102). -/
def encode (i : Instr) : Code := i.opcode.matchWord ||| i.operandBits

/-- The two bytes of an instruction as memory holds them, the most significant first (R65). -/
def encodeBytes (i : Instr) : List Byte :=
  [(encode i).extractLsb' 8 8, (encode i).extractLsb' 0 8]

/-- The two bytes, in the order of their addresses, of an instruction whose bits are `w`, numbered as
spec/opcode_table.json numbers them; bits at and above `nbits` are 0. -/
def tableWordBytes (nbits w : Nat) : List Byte :=
  let c : Code := BitVec.ofNat 16 (w % 2 ^ nbits)
  [c.extractLsb' 8 8, c.extractLsb' 0 8]

/-- The instruction the decoder reads from the table word `w`. -/
def decodeTableWord (nbits w : Nat) : Option Instr :=
  match decodeBytes (tableWordBytes nbits w) with
  | .ok (i, _) => some i
  | .error _ => none

end Sys2Proof
end

