-- ==== Sys2Proof/Machine/State.lean ====
section
/-! DEFINITION. The state of the block (spec/10_state.md R20 to R41), why a step can stop, and the state right after
reset (R40, R311). Plain data: two states can be compared and a state can be written out. -/

namespace Sys2Proof.Machine

/-- The engine state `estate` (R35). Blocked-on-Input is a condition, not a value. -/
inductive EngineState where
  | uninitialized
  | ready
  | running
  | faulted
  deriving DecidableEq, Repr

/-- The fatal fault kinds (R262); `None` is `Option.none`. -/
inductive FaultKind where
  /-- code 1: `pc + 1` > 0xFFF at fetch (R64) -/
  | fetchOutOfBounds
  /-- code 2: call with `depth` = 16 (R123) -/
  | stackOverflow
  /-- code 3: return with `depth` = 0 (R121) -/
  | stackUnderflow
  /-- code 4: data address above 0xFFF with `DATA_OOB` = fault (R62, R63) -/
  | memoryOutOfBounds
  /-- code 5: `V[X]` > 15 in a key skip with `KEY_INDEX_OOB` = fault (R236) -/
  | keyIndexOutOfRange
  /-- code 6: data write below 0x050 with `GLYPH_WRITE` = fault (R63) -/
  | glyphRegionWrite
  deriving DecidableEq, Repr

/-- The memory: the bytes that differ from `unlistedByte`, at strictly rising addresses (`Memory.wf`). -/
abbrev Memory := List Host.Cell

/-- The canonical form, from address `lo` on: strictly rising addresses inside the address space, none holding what an
unlisted address reads as. -/
def Memory.wfFrom (lo : Nat) : Memory → Bool
  | [] => true
  | (a, b) :: rest => decide (lo ≤ a) && decide (a < memSize) && (b != unlistedByte a) && Memory.wfFrom (a + 1) rest

/-- The canonical form of memory. -/
def Memory.wf (m : Memory) : Bool := Memory.wfFrom 0 m

/-- The architectural state (R20), and the draw counter. -/
structure State where
  /-- The general registers `V[0..15]` (R21); `V[15]` is `VF` (R22). -/
  v : Vector Byte 16
  /-- The index register `I` (R24). -/
  i : Word
  /-- The program counter (R25). -/
  pc : Word
  /-- The call stack's 16 entries (R28). -/
  stack : Vector Word 16
  /-- The number of occupied stack entries, 0 to 16 (R29). -/
  depth : Fin 17
  /-- The 4096 bytes of memory (R26). -/
  mem : Memory
  /-- The display: 32 rows of 64 pixels; `pixel[x, y]` is bit x of row y, so that the rows in order are the row-major
  bit sequence of R30. -/
  display : Vector (BitVec 64) 32
  /-- The delay timer `DT` (R31). -/
  dt : Byte
  /-- The sound timer `ST` (R32). -/
  st : Byte
  /-- The key states `key[0..15]`, true meaning pressed (R33). -/
  keys : Vector Bool 16
  /-- The redraw flag `draw_pending` (R34). -/
  drawPending : Bool
  /-- The engine state `estate` (R35). -/
  estate : EngineState
  /-- The fault record's kind, `fault_kind` (R36). -/
  faultKind : Option FaultKind
  /-- The fault record's pc, `fault_pc` (R36). -/
  faultPc : Word
  /-- THE MODEL'S OWN FIELD: how many random bytes have been drawn. It says which free value `Config.randomByte` gives
  next (R163; notes/assumptions/1.md). -/
  draws : Nat
  deriving DecidableEq, Repr

/-- Why `step` answers a fault. Raising a fatal fault is a NEXT state (`State.takeFault`), since R263 says what it
leaves; this is the engine that has already faulted. -/
inductive Fault where
  /-- Raised by `step` in the engine state Faulted: the step does nothing and returns `Err(fault_kind)` (R264). Safe: it
  is what the spec says, and no state changes. -/
  | engineFaulted (kind : Option FaultKind)
  deriving DecidableEq, Repr

/-- Why `step`, or a host operation, is refused. -/
inductive Refusal where
  /-- Raised by an arm of `exec` whose instruction has no meaning yet (none in this model). Safe. -/
  | notModelled (mnemonic : String)
  /-- Raised by `step`, the ticks, the snapshot and `ack_redraw` in the engine state Uninitialized, where R285 refuses
  them: "a model gives them no meaning and a claim may not use them". Safe (notes/assumptions/15.md). -/
  | uninitialized
  deriving DecidableEq, Repr

/-- The state right after reset (R40, R311): memory lists nothing, so it reads as `GLYPH_ROM` and zeros. The keys belong
to the input collaborator and reset leaves them as they were; here they are all released
(DESIGN CHOICE, notes/assumptions/2.md). No byte has been drawn (DESIGN CHOICE, notes/assumptions/1.md). -/
def State.reset : State where
  v := Vector.replicate 16 0
  i := 0
  pc := entry
  stack := Vector.replicate 16 0
  depth := 0
  mem := []
  display := Vector.replicate 32 0
  dt := 0
  st := 0
  keys := Vector.replicate 16 false
  drawPending := false
  estate := .ready
  faultKind := none
  faultPc := 0
  draws := 0

end Sys2Proof.Machine
end

