-- ==== Sys2Proof/Machine/Ops.lean ====
section
/-! DEFINITION. The named operations over memory and registers, the taking of a fatal fault, and the skeleton of a step
(spec/10_state.md, spec/20_memory.md, spec/40_control_flow.md R120, spec/60_exceptions.md R263). -/

namespace Sys2Proof.Machine

/-- What a meaning answers. -/
abbrev Result := Host.Outcome State Fault Refusal

/-! ### Memory as data -/

/-- The byte at an address: the one listed, else what an unlisted address reads as. -/
def Memory.read : Memory → Nat → Byte
  | [], a => unlistedByte a
  | (a', b) :: rest, a => if a = a' then b else Memory.read rest a

/-- Put one entry at its place in rising order. -/
def Memory.insert : Memory → Nat → Byte → Memory
  | [], a, b => [(a, b)]
  | (a', b') :: rest, a, b =>
    if a < a' then (a, b) :: (a', b') :: rest else (a', b') :: Memory.insert rest a b

/-- Take every entry for an address out. -/
def Memory.erase (m : Memory) (a : Nat) : Memory := m.filter (fun c => c.1 != a)

/-- Store one byte, keeping the canonical form: a byte equal to what the unlisted address reads as is not listed. -/
def Memory.store (m : Memory) (a : Nat) (b : Byte) : Memory :=
  if b = unlistedByte a then m.erase a else (m.erase a).insert a b

/-- Store bytes at rising addresses from `a` on. -/
def Memory.storeBytes (m : Memory) (a : Nat) : List Byte → Memory
  | [] => m
  | b :: bs => Memory.storeBytes (m.store a b) (a + 1) bs

/-! ### Registers -/

/-- Read `V[x]` (R21). -/
def State.getV (s : State) (x : Reg) : Byte := s.v[x.toNat]

/-- Write `V[x]` (R21). -/
def State.setV (s : State) (x : Reg) (b : Byte) : State := { s with v := s.v.set x.toNat b }

/-- Write `I` (R24): 16 bits, no masking to 12. -/
def State.setI (s : State) (a : Word) : State := { s with i := a }

/-- Write `pc` (R25). -/
def State.setPc (s : State) (a : Word) : State := { s with pc := a }

/-- Write `DT` (R31). -/
def State.setDt (s : State) (b : Byte) : State := { s with dt := b }

/-- Write `ST` (R32). -/
def State.setSt (s : State) (b : Byte) : State := { s with st := b }

/-- Replace the memory. -/
def State.setMem (s : State) (m : Memory) : State := { s with mem := m }

/-- Replace the display and mark a redraw pending (R34, R215). -/
def State.redraw (s : State) (d : Vector (BitVec 64) 32) : State := { s with display := d, drawPending := true }

/-- Write the engine state (R35). -/
def State.setEstate (s : State) (e : EngineState) : State := { s with estate := e }

/-- The default advance, `pc <- pc + 2` (R25, R120). -/
def State.advance (s : State) : State := s.setPc (s.pc + 2#16)

/-- The skip pattern: advance by 4 if the condition holds, else by 2 (R124). -/
def State.skipIf (s : State) (c : Bool) : State := if c then s.setPc (s.pc + 4#16) else s.advance

/-- The registers with the bytes written to `V[k]`, `V[k+1]`, … in order. -/
def writeRegs (v : Vector Byte 16) (k : Nat) : List Byte → Vector Byte 16
  | [] => v
  | b :: bs => writeRegs (v.setIfInBounds k b) (k + 1) bs

/-- The bytes of `V[0]`, …, `V[x]` in order: x is a count, not a register read (R93). -/
def readRegs (v : Vector Byte 16) (x : Reg) : List Byte := v.toList.take (x.toNat + 1)

/-! ### The call stack (R28, R29) -/

/-- Push at `stack[depth]` and increment `depth`; `none` when 16 entries are occupied (R123). -/
def State.push (s : State) (a : Word) : Option State :=
  if h : s.depth.val < 16 then
    some { s with stack := s.stack.set s.depth.val a, depth := ⟨s.depth.val + 1, by omega⟩ }
  else none

/-- Decrement `depth` and give the entry it now names, which is not cleared; `none` when the stack is empty (R121). -/
def State.pop (s : State) : Option (Word × State) :=
  if h : 0 < s.depth.val then
    some (s.stack[s.depth.val - 1], { s with depth := ⟨s.depth.val - 1, by omega⟩ })
  else none

/-! ### Faults -/

/-- Taking a fatal fault (R263): none of the step's writes is applied, then `estate` is Faulted, `fault_kind` is the kind
and `fault_pc` the pc of the faulting step. There is no handler and no return (R260, R270): only the host's `reset` and
`load` leave Faulted (Sys2Proof/Machine/HostPort.lean; notes/assumptions/13.md). -/
def State.takeFault (s : State) (k : FaultKind) : State :=
  { s with estate := .faulted, faultKind := some k, faultPc := s.pc }

/-- The end of an instruction that may raise a fault: its writes take effect together, or the fault is taken and none
does (R12, R263). -/
def State.commit (s : State) : Except FaultKind State → Result
  | .ok t => .next t
  | .error k => .next (s.takeFault k)

/-! ### Fetch and the skeleton of a step -/

/-- `Fetch16(pc)` (R64): two bytes, big-endian; a fault if `pc + 1` is above 0xFFF. -/
def fetch16 (m : Memory) (pc : Word) : Except FaultKind Code :=
  if pc.toNat + 1 > 0xFFF then .error .fetchOutOfBounds
  else .ok (codeOfBytes (m.read pc.toNat) (m.read (pc.toNat + 1)))

/-- What a step does with a code that matches no row (R97, R266): the default advance, and nothing else. The diagnostic it
reports is an output, not state (`stepDiagnostic` in Sys2Proof/Machine/HostPort.lean). -/
def stepUnknown (s : State) : Result := .next s.advance

/-- One step (R120) over a decoder and the instructions' meanings. In Ready and Running the engine is Running after the
step unless the step faults (R261). No instruction reads `estate`, so the write stands before the instruction, and a
fault's own write of `estate` wins over it (notes/assumptions/14.md). -/
def stepOver (dec : Code → Except Reject Instr) (ex : Instr → State → Result) (s : State) : Result :=
  match s.estate with
  | .faulted => .fault (.engineFaulted s.faultKind)
  | .uninitialized => .refused .uninitialized
  | .ready | .running =>
    match fetch16 s.mem s.pc with
    | .error k => .next (s.takeFault k)
    | .ok code =>
      match dec code with
      | .error _ => stepUnknown (s.setEstate .running)
      | .ok inst => ex inst (s.setEstate .running)

end Sys2Proof.Machine
end

