-- ==== Sys2Proof/Machine/Flags.lean ====
section
/-! DEFINITION. The flag computations (spec/10_state.md R38): each value an instruction writes to `VF`, and the order in
which a result and a flag are written (spec/41_alu.md R150). -/

namespace Sys2Proof.Machine

/-- A flag as the byte written to `VF`: 1 or 0 (R38). -/
def flagByte (b : Bool) : Byte := if b then 1#8 else 0#8

/-- 8XY4: carry, `V[X] + V[Y] > 255` (R157). -/
def carryFlag (a b : Byte) : Bool := decide (a.toNat + b.toNat > 255)

/-- 8XY5, 8XY7: not borrow in `a - b`, false iff `b > a` (R158, R160). -/
def notBorrowFlag (a b : Byte) : Bool := !decide (b.toNat > a.toNat)

/-- 8XY6: the bit shifted out to the right, `a[0]` (R159). -/
def shiftedOutRight (a : Byte) : Bool := a.getLsbD 0

/-- 8XYE: the bit shifted out to the left, `a[7]` (R161). -/
def shiftedOutLeft (a : Byte) : Bool := a.getLsbD 7

/-- FX1E: the exact sum does not fit in the 12-bit address space (R182). -/
def indexOverflow (i : Word) (a : Byte) : Bool := decide (i.toNat + a.toNat > 0xFFF)

/-- Write a flag into `VF` (R22). -/
def State.setFlag (s : State) (b : Bool) : State := s.setV Reg.vf (flagByte b)

/-- Write the destination, then `VF`: when the destination is `VF` the flag is what it ends with (R150, R23). -/
def State.setVFlag (s : State) (x : Reg) (r : Byte) (b : Bool) : State := (s.setV x r).setFlag b

end Sys2Proof.Machine
end

