-- ==== Sys2Proof/Machine/Alu.lean ====
section
/-! DEFINITION. The register and arithmetic instructions (spec/41_alu.md). Operands are read at the start of the step, the
destination is written, then `VF` (R150); each ends with the default advance. -/

namespace Sys2Proof.Machine

/-- LD VX, NN (R151). -/
def execLdImm (x : Reg) (nn : Byte) (s : State) : Result := .next (s.setV x nn).advance

/-- ADD VX, NN (R152): no flag. -/
def execAddImm (x : Reg) (nn : Byte) (s : State) : Result := .next (s.setV x (s.getV x + nn)).advance

/-- LD VX, VY (R153). -/
def execLdReg (x y : Reg) (s : State) : Result := .next (s.setV x (s.getV y)).advance

/-- OR VX, VY (R154): `VF` is not touched. -/
def execOrReg (x y : Reg) (s : State) : Result := .next (s.setV x (s.getV x ||| s.getV y)).advance

/-- AND VX, VY (R155): `VF` is not touched. -/
def execAndReg (x y : Reg) (s : State) : Result := .next (s.setV x (s.getV x &&& s.getV y)).advance

/-- XOR VX, VY (R156): `VF` is not touched. -/
def execXorReg (x y : Reg) (s : State) : Result := .next (s.setV x (s.getV x ^^^ s.getV y)).advance

/-- ADD VX, VY (R157): `VF` is the carry. -/
def execAddReg (x y : Reg) (s : State) : Result :=
  .next (s.setVFlag x (s.getV x + s.getV y) (carryFlag (s.getV x) (s.getV y))).advance

/-- SUB VX, VY (R158): `VF` is the not-borrow of `V[X] - V[Y]`. -/
def execSubReg (x y : Reg) (s : State) : Result :=
  .next (s.setVFlag x (s.getV x - s.getV y) (notBorrowFlag (s.getV x) (s.getV y))).advance

/-- SHR VX (R159): Y is decoded and not used. -/
def execShr (x _y : Reg) (s : State) : Result :=
  .next (s.setVFlag x (s.getV x >>> 1) (shiftedOutRight (s.getV x))).advance

/-- SUBN VX, VY (R160): `VF` is the not-borrow of `V[Y] - V[X]`. -/
def execSubnReg (x y : Reg) (s : State) : Result :=
  .next (s.setVFlag x (s.getV y - s.getV x) (notBorrowFlag (s.getV y) (s.getV x))).advance

/-- SHL VX (R161): Y is decoded and not used. -/
def execShl (x _y : Reg) (s : State) : Result :=
  .next (s.setVFlag x (s.getV x <<< 1) (shiftedOutLeft (s.getV x))).advance

/-- One draw of the random oracle (R163): the free byte, and the state whose next draw is another one. -/
def State.drawRandom (s : State) : Byte × State := (Config.randomByte s.draws, { s with draws := s.draws + 1 })

/-- RND VX, NN (R162): a free byte AND NN. -/
def execRnd (x : Reg) (nn : Byte) (s : State) : Result :=
  .next (s.drawRandom.2.setV x (s.drawRandom.1 &&& nn)).advance

end Sys2Proof.Machine
end

