-- ==== Sys2Proof/Machine/ControlFlow.lean ====
section
/-! DEFINITION. The control-flow instructions (spec/40_control_flow.md). -/

namespace Sys2Proof.Machine

/-- RET (R121): pop, then the default advance from the popped address; `StackUnderflow` at depth 0. -/
def execRet (s : State) : Result :=
  match s.pop with
  | some (a, t) => .next (t.setPc (a + 2#16))
  | none => .next (s.takeFault .stackUnderflow)

/-- JP NNN (R122). -/
def execJp (nnn : Addr12) (s : State) : Result := .next (s.setPc (zext16 nnn))

/-- CALL NNN (R123): push the address of this instruction; `StackOverflow` at depth 16. -/
def execCall (nnn : Addr12) (s : State) : Result :=
  match s.push s.pc with
  | some t => .next (t.setPc (zext16 nnn))
  | none => .next (s.takeFault .stackOverflow)

/-- SE VX, NN (R124). -/
def execSeImm (x : Reg) (nn : Byte) (s : State) : Result := .next (s.skipIf (s.getV x == nn))

/-- SNE VX, NN (R125). -/
def execSneImm (x : Reg) (nn : Byte) (s : State) : Result := .next (s.skipIf (s.getV x != nn))

/-- SE VX, VY (R126). -/
def execSeReg (x y : Reg) (s : State) : Result := .next (s.skipIf (s.getV x == s.getV y))

/-- SNE VX, VY (R127). -/
def execSneReg (x y : Reg) (s : State) : Result := .next (s.skipIf (s.getV x != s.getV y))

/-- JP V0, NNN (R128): the sum is not reduced modulo 4096. -/
def execJpV0 (nnn : Addr12) (s : State) : Result := .next (s.setPc (zext16 nnn + zext16 (s.getV Reg.v0)))

end Sys2Proof.Machine
end

