-- ==== Sys2Proof/Machine/Operands.lean ====
section
/-! DEFINITION. The operand forms (spec/42_index_memory.md R180, R187): the index-indirect data accesses of
spec/20_memory.md R62 and R63, the key index of spec/44_timers_input.md R236 and the sprite coordinate of
spec/43_display.md R213, each under the parameters it depends on. -/

namespace Sys2Proof.Machine

/-- The effective address of the k-th byte of an access, `I + k`, an exact integer (R180). -/
def State.effAddr (s : State) (k : Nat) : Nat := s.i.toNat + k

/-- The memory index a data address names, or `MemoryOutOfBounds` (R62, R63). -/
def resolveAddr (p : Params) (addr : Nat) : Except FaultKind Nat :=
  if addr ≤ 0xFFF then .ok addr
  else match p.dataOob with
    | .fault => .error .memoryOutOfBounds
    | .wrap => .ok (addr % 4096)

/-- `MemRead(addr, 1)` (R62). -/
def memRead (p : Params) (m : Memory) (addr : Nat) : Except FaultKind Byte :=
  match resolveAddr p addr with
  | .ok a => .ok (m.read a)
  | .error k => .error k

/-- `MemWrite(addr, 1, v)` (R63): the glyph region keeps its bytes. -/
def memWrite (p : Params) (m : Memory) (addr : Nat) (b : Byte) : Except FaultKind Memory :=
  match resolveAddr p addr with
  | .error k => .error k
  | .ok a =>
    if a ≤ 0x04F then
      match p.glyphWrite with
      | .ignore => .ok m
      | .fault => .error .glyphRegionWrite
    else .ok (m.store a b)

/-- `n` bytes read at rising addresses from `addr` on (R65). -/
def memReadBytes (p : Params) (m : Memory) (addr : Nat) : Nat → Except FaultKind (List Byte)
  | 0 => .ok []
  | n + 1 =>
    match memRead p m addr with
    | .error k => .error k
    | .ok b =>
      match memReadBytes p m (addr + 1) n with
      | .error k => .error k
      | .ok bs => .ok (b :: bs)

/-- Bytes written at rising addresses from `addr` on (R65); the first fault raised discards them all (R180). No access
of at most 16 rising addresses raises both kinds of fault, so this order of checks is that of R268
(notes/assumptions/19.md). -/
def memWriteBytes (p : Params) (m : Memory) (addr : Nat) : List Byte → Except FaultKind Memory
  | [] => .ok m
  | b :: bs =>
    match memWrite p m addr b with
    | .error k => .error k
    | .ok m' => memWriteBytes p m' (addr + 1) bs

/-- `keyindex(v)` (R236). -/
def keyIndex (p : Params) (v : Byte) : Except FaultKind (Fin 16) :=
  if h : v.toNat < 16 then .ok ⟨v.toNat, h⟩
  else match p.keyIndexOob with
    | .fault => .error .keyIndexOutOfRange
    | .lowNibble => .ok ⟨v.toNat % 16, Nat.mod_lt _ (by decide)⟩

/-- The lowest-indexed pressed key, if any key is pressed (R233). -/
def lowestKey (keys : Vector Bool 16) : Option Nat := keys.toList.findIdx? id

/-- `edge(x0, y0, col, row)` (R213): the pixel a sprite bit falls on, `none` where `clip` leaves it out. -/
def edge (e : DrawEdge) (x0 y0 : Byte) (col row : Nat) : Option (Nat × Nat) :=
  match e with
  | .wrap => some ((x0.toNat + col) % 64, (y0.toNat + row) % 32)
  | .clip =>
    let xc := x0.toNat % 64 + col
    let yc := y0.toNat % 32 + row
    if xc ≥ 64 || yc ≥ 32 then none else some (xc, yc)

end Sys2Proof.Machine
end

