-- ==== Sys2Proof/Machine/Display.lean ====
section
/-! DEFINITION. The display compositor and the display instructions (spec/43_display.md). -/

namespace Sys2Proof.Machine

/-- The display: 32 rows of 64 pixels (R30). -/
abbrev Display := Vector (BitVec 64) 32

/-- `pixel[x, y]`; outside the grid there is none, and the answer is false (R30). -/
def Display.pixel (d : Display) (x y : Nat) : Bool := (d[y]?.getD 0).getLsbD x

/-- `clear()` (R210). -/
def Display.clear : Display := Vector.replicate 32 0

/-- `xor_pixel(x, y)` (R210): flip the pixel; the answer says whether it turned from set to unset. -/
def Display.xorPixel (d : Display) (x y : Nat) : Display × Bool :=
  (if h : y < 32 then d.set y (d[y] ^^^ BitVec.twoPow 64 x) else d, d.pixel x y)

/-- One sprite bit: if it is set and falls on the grid, XOR its pixel and gather the collision (R212). -/
def drawBit (e : DrawEdge) (x0 y0 : Byte) (row : Nat) (b : Byte) (acc : Display × Bool) (col : Nat) : Display × Bool :=
  if b.getLsbD (7 - col) then
    match edge e x0 y0 col row with
    | none => acc
    | some (x, y) => ((acc.1.xorPixel x y).1, acc.2 || (acc.1.xorPixel x y).2)
  else acc

/-- One sprite row: columns 0 to 7, the most significant bit first (R212). -/
def drawRow (e : DrawEdge) (x0 y0 : Byte) (row : Nat) (b : Byte) (acc : Display × Bool) : Display × Bool :=
  (List.range 8).foldl (drawBit e x0 y0 row b) acc

/-- The sprite's rows from `row` on (R212). -/
def drawRows (e : DrawEdge) (x0 y0 : Byte) (row : Nat) : List Byte → Display × Bool → Display × Bool
  | [], acc => acc
  | b :: bs, acc => drawRows e x0 y0 (row + 1) bs (drawRow e x0 y0 row b acc)

/-- CLS (R211). -/
def execCls (s : State) : Result := .next (s.redraw Display.clear).advance

/-- DRW VX, VY, N (R212) under `DRAW_EDGE` and `DATA_OOB`: the coordinates are read before `VF` is written. -/
def drwWith (p : Params) (x y : Reg) (n : Nibble) (s : State) : Result :=
  s.commit (match memReadBytes p s.mem (s.effAddr 0) n.toNat with
    | .ok rows =>
      let r := drawRows p.drawEdge (s.getV x) (s.getV y) 0 rows (s.display, false)
      .ok ((s.redraw r.1).setFlag r.2).advance
    | .error k => .error k)

/-- DRW VX, VY, N (R212). -/
def execDrw (x y : Reg) (n : Nibble) (s : State) : Result := drwWith params x y n s

end Sys2Proof.Machine
end

