-- ==== Sys2Proof/Machine/IndexMemory.lean ====
section
/-! DEFINITION. The index register and memory instructions (spec/42_index_memory.md). Where a rule depends on a parameter
the meaning is written over `Params`; the instruction is that meaning at this model's parameters. -/

namespace Sys2Proof.Machine

/-- LD I, NNN (R181). -/
def execLdI (nnn : Addr12) (s : State) : Result := .next (s.setI (zext16 nnn)).advance

/-- ADD I, VX (R182) under `ADD_I_SETS_VF`: the sum is modulo 2^16 and not clamped to 12 bits; `VF` is written last. -/
def addIVxWith (p : Params) (x : Reg) (s : State) : Result :=
  let t := s.setI (s.i + zext16 (s.getV x))
  .next (if p.addISetsVf then t.setFlag (indexOverflow s.i (s.getV x)) else t).advance

/-- ADD I, VX (R182). -/
def execAddIVx (x : Reg) (s : State) : Result := addIVxWith params x s

/-- LD F, VX (R183): no mask of `V[X]`. -/
def execLdFVx (x : Reg) (s : State) : Result := .next (s.setI (zext16 (s.getV x) * 5#16)).advance

/-- The three decimal digits of a byte: hundreds, tens, ones (R184). -/
def bcdDigits (v : Byte) : List Byte := [v / 100#8, v / 10#8 % 10#8, v % 10#8]

/-- LD B, VX (R184): `I` is not changed. -/
def ldBVxWith (p : Params) (x : Reg) (s : State) : Result :=
  s.commit (match memWriteBytes p s.mem (s.effAddr 0) (bcdDigits (s.getV x)) with
    | .ok m => .ok (s.setMem m).advance
    | .error k => .error k)

/-- LD B, VX (R184). -/
def execLdBVx (x : Reg) (s : State) : Result := ldBVxWith params x s

/-- `I` after a register-dump or a register-load, `trunc16(I + X + 1)` (R185, R186). -/
def indexAfter (i : Word) (x : Reg) : Word := BitVec.ofNat 16 (i.toNat + x.toNat + 1)

/-- LD [I], VX (R185): X is a count; `I` is X + 1 further on afterwards, dropped writes or not. -/
def ldIVxWith (p : Params) (x : Reg) (s : State) : Result :=
  s.commit (match memWriteBytes p s.mem (s.effAddr 0) (readRegs s.v x) with
    | .ok m => .ok ((s.setMem m).setI (indexAfter s.i x)).advance
    | .error k => .error k)

/-- LD [I], VX (R185). -/
def execLdIVx (x : Reg) (s : State) : Result := ldIVxWith params x s

/-- LD VX, [I] (R186): X is a count; `VF` is loaded like any register. -/
def ldVxIWith (p : Params) (x : Reg) (s : State) : Result :=
  s.commit (match memReadBytes p s.mem (s.effAddr 0) (x.toNat + 1) with
    | .ok bs => .ok (({ s with v := writeRegs s.v 0 bs } : State).setI (indexAfter s.i x)).advance
    | .error k => .error k)

/-- LD VX, [I] (R186). -/
def execLdVxI (x : Reg) (s : State) : Result := ldVxIWith params x s

end Sys2Proof.Machine
end

