-- ==== Sys2Proof/Machine/TimersInput.lean ====
section
/-! DEFINITION. The key input and timer instructions (spec/44_timers_input.md). -/

namespace Sys2Proof.Machine

/-- The end of a key skip: the skip pattern under a condition on the key's state, or the fault of `keyindex` (R230, R236). -/
def State.skipOnKey (s : State) (k : Except FaultKind (Fin 16)) (c : Bool → Bool) : Result :=
  s.commit (match k with
    | .ok j => .ok (s.skipIf (c s.keys[j]))
    | .error e => .error e)

/-- SKP VX (R230) under `KEY_INDEX_OOB`. -/
def skpWith (p : Params) (x : Reg) (s : State) : Result := s.skipOnKey (keyIndex p (s.getV x)) id

/-- SKP VX (R230). -/
def execSkp (x : Reg) (s : State) : Result := skpWith params x s

/-- SKNP VX (R231) under `KEY_INDEX_OOB`. -/
def sknpWith (p : Params) (x : Reg) (s : State) : Result := s.skipOnKey (keyIndex p (s.getV x)) not

/-- SKNP VX (R231). -/
def execSknp (x : Reg) (s : State) : Result := sknpWith params x s

/-- LD VX, DT (R232). -/
def execLdVxDt (x : Reg) (s : State) : Result := .next (s.setV x s.dt).advance

/-- LD VX, K (R233): the lowest pressed key; with none pressed nothing changes and `pc` stays. -/
def execLdVxK (x : Reg) (s : State) : Result :=
  match lowestKey s.keys with
  | some k => .next (s.setV x (BitVec.ofNat 8 k)).advance
  | none => .next s

/-- LD DT, VX (R234). -/
def execLdDtVx (x : Reg) (s : State) : Result := .next (s.setDt (s.getV x)).advance

/-- LD ST, VX (R235). -/
def execLdStVx (x : Reg) (s : State) : Result := .next (s.setSt (s.getV x)).advance

end Sys2Proof.Machine
end

