-- ==== Sys2Proof/Machine/Step.lean ====
section
/-! DEFINITION. One step of the machine (spec/40_control_flow.md R120): the skeleton `stepOver` of Machine/Ops.lean over
this model's decoder and meanings. -/

namespace Sys2Proof.Machine

/-- `step()` (R120). -/
def step (s : State) : Host.Outcome State Fault Refusal := stepOver decode exec s

/-- The state with the table word `w` stored where `step` fetches its next instruction: the two bytes at `pc`. A program
comes to run from outside the block, by `load` (R313); this stands for that load (notes/assumptions/10.md). At a `pc`
from which nothing can be fetched (R64) there is no place to store, and the state is unchanged. -/
def State.withFetchWord (s : State) (nbits w : Nat) : State :=
  if s.pc.toNat + 1 > 0xFFF then s
  else s.setMem (s.mem.storeBytes s.pc.toNat (tableWordBytes nbits w))

end Sys2Proof.Machine
end

