-- ==== Sys2Proof/Machine/HostPort.lean ====
section
/-! DEFINITION. The block's interface to its host (spec/60_exceptions.md R273 to R280; spec/70_reset_and_hazards.md R311,
R313): every transaction of R278, what each returns, and what a step reports besides its next state. -/

namespace Sys2Proof.Machine

/-- `load`'s error (R267). -/
inductive LoadError where
  | romTooLarge
  deriving DecidableEq, Repr

/-- The diagnostic `UnknownOpcode(code, pc)` (R266). -/
structure Diagnostic where
  code : Code
  pc : Word
  deriving DecidableEq, Repr

/-- What the status read gives (R278, R37). -/
structure Status where
  estate : EngineState
  faultKind : Option FaultKind
  faultPc : Word
  drawPending : Bool
  soundActive : Bool
  deriving DecidableEq, Repr

/-- The numeric fault codes of a status read (R262). -/
def faultCode : Option FaultKind → Nat
  | none => 0
  | some .fetchOutOfBounds => 1
  | some .stackOverflow => 2
  | some .stackUnderflow => 3
  | some .memoryOutOfBounds => 4
  | some .keyIndexOutOfRange => 5
  | some .glyphRegionWrite => 6

/-! ### What a step reports (R280, R266) -/

/-- The diagnostic output of a step from `s`: an unknown code that was fetched (R266). -/
def stepDiagnostic (s : State) : Option Diagnostic :=
  match s.estate with
  | .faulted | .uninitialized => none
  | .ready | .running =>
    match fetch16 s.mem s.pc with
    | .error _ => none
    | .ok code =>
      match decode code with
      | .error _ => some ⟨code, s.pc⟩
      | .ok _ => none

/-- Whether an instruction is CLS or DRW, the two that report `display_changed` (R215). -/
def Instr.changesDisplay : Instr → Bool
  | .cls | .drw _ _ _ => true
  | _ => false

/-- `display_changed` of a step from `s` that returns `Ok` (R120, R215). -/
def displayChanged (s : State) : Bool :=
  match fetch16 s.mem s.pc with
  | .error _ => false
  | .ok code =>
    match decode code with
    | .error _ => false
    | .ok i => Instr.changesDisplay i

/-- What a transaction returns to the host. -/
inductive Response where
  /-- an operation with no result, or `load`'s `Ok` -/
  | done
  /-- `load`'s `Err` (R267) -/
  | loadFailed (e : LoadError)
  /-- a step's `Ok(StepEffect)` and its diagnostic output (R280) -/
  | stepped (displayChanged : Bool) (diagnostic : Option Diagnostic)
  /-- a step's `Err(fault_kind)` (R263, R264) -/
  | stepFailed (kind : Option FaultKind)
  /-- the display snapshot, the rows in order (R214) -/
  | pixels (rows : Vector (BitVec 64) 32)
  /-- the status read -/
  | status (st : Status)
  deriving DecidableEq, Repr

/-- What a step from `s` to `t` returns: `Err` when the step raised a fault, else `Ok` (R263, R280). -/
def stepResponse (s t : State) : Response :=
  if t.estate = .faulted then .stepFailed t.faultKind else .stepped (displayChanged s) (stepDiagnostic s)

/-! ### The operations -/

/-- `reset()` (R311): every element of R40; the keys are left as they were (D17), and so is the oracle's position, which
is no state of the block (R163; notes/assumptions/16.md). -/
def hostReset (s : State) : State := { State.reset with keys := s.keys, draws := s.draws }

/-- `load(bytes)` (R313): reset first; too long a program fails and leaves the reset state. -/
def hostLoad (bytes : List Byte) (s : State) : State × Except LoadError Unit :=
  if bytes.length > maxProgram then (hostReset s, .error .romTooLarge)
  else ((hostReset s).setMem ((hostReset s).mem.storeBytes entry.toNat bytes), .ok ())

/-- `tick_delay()` (R273). -/
def tickDelay (s : State) : State := if s.dt.toNat > 0 then s.setDt (s.dt - 1#8) else s

/-- `tick_sound()` (R273). -/
def tickSound (s : State) : State := if s.st.toNat > 0 then s.setSt (s.st - 1#8) else s

/-- `set_key_pressed(k, p)` (R276). -/
def setKeyPressed (k : Fin 16) (p : Bool) (s : State) : State := { s with keys := s.keys.set k p }

/-- `ack_redraw()` (R277). -/
def ackRedraw (s : State) : State := { s with drawPending := false }

/-- `sound_active` (R274). -/
def soundActive (s : State) : Bool := s.st != 0#8

/-- Pixel `k` of the snapshot, `pixel[k mod 64, k / 64]`: the 2048 bits in row-major order (R30, R214). -/
def snapshotBit (s : State) (k : Nat) : Bool := Display.pixel s.display (k % 64) (k / 64)

/-- The status read (R278). -/
def statusRead (s : State) : Status :=
  { estate := s.estate, faultKind := s.faultKind, faultPc := s.faultPc, drawPending := s.drawPending, soundActive := soundActive s }

/-- The transactions of R278. A key index is a `Fin 16`: an index outside 0–15 is no value of the operation's argument
(R276). -/
inductive HostOp where
  | reset
  | load (bytes : List Byte)
  | step
  | tickDelay
  | tickSound
  | setKeyPressed (k : Fin 16) (p : Bool)
  | snapshot
  | ackRedraw
  | status
  deriving DecidableEq, Repr

/-- An operation that R285 refuses in Uninitialized. -/
def whenInitialized (s : State) (r : State × Response) : Except Refusal (State × Response) :=
  if s.estate = .uninitialized then .error .uninitialized else .ok r

/-- One transaction: the state it leaves and what it returns, or its refusal (R278, R261, R285). -/
def transact (op : HostOp) (s : State) : Except Refusal (State × Response) :=
  match op with
  | .reset => .ok (hostReset s, .done)
  | .load bytes =>
    match hostLoad bytes s with
    | (t, .ok ()) => .ok (t, .done)
    | (t, .error e) => .ok (t, .loadFailed e)
  | .step =>
    match step s with
    | .next t => .ok (t, stepResponse s t)
    | .fault (.engineFaulted k) => .ok (s, .stepFailed k)
    | .refused r => .error r
  | .tickDelay => whenInitialized s (tickDelay s, .done)
  | .tickSound => whenInitialized s (tickSound s, .done)
  | .setKeyPressed k p => .ok (setKeyPressed k p s, .done)
  | .snapshot => whenInitialized s (s, .pixels s.display)
  | .ackRedraw => whenInitialized s (ackRedraw s, .done)
  | .status => .ok (s, .status (statusRead s))

/-- A schedule of transactions, in the host's order (R279): the state it ends in. -/
def runOps : List HostOp → State → Except Refusal State
  | [], s => .ok s
  | op :: ops, s =>
    match transact op s with
    | .error r => .error r
    | .ok (t, _) => runOps ops t

end Sys2Proof.Machine
end

