-- ==== Sys2Proof/Machine/Configured.lean ====
section
/-! DEFINITION. The block under other values of the parameters of spec/00_scope.md R8. `exec` and `step` are the block at
this model's parameters (`params`); here are the same meanings, step, reset and load with the parameters as a named argument. -/

namespace Sys2Proof.Machine

/-- The meaning of an instruction under `p`. Seven instructions depend on a parameter; every other arm is `exec`'s. -/
def execWith (p : Params) (i : Instr) (s : State) : Result :=
  match i with
  | .cls => exec .cls s
  | .ret => exec .ret s
  | .jp nnn => exec (.jp nnn) s
  | .call nnn => exec (.call nnn) s
  | .seImm x nn => exec (.seImm x nn) s
  | .sneImm x nn => exec (.sneImm x nn) s
  | .seReg x y => exec (.seReg x y) s
  | .ldImm x nn => exec (.ldImm x nn) s
  | .addImm x nn => exec (.addImm x nn) s
  | .ldReg x y => exec (.ldReg x y) s
  | .orReg x y => exec (.orReg x y) s
  | .andReg x y => exec (.andReg x y) s
  | .xorReg x y => exec (.xorReg x y) s
  | .addReg x y => exec (.addReg x y) s
  | .subReg x y => exec (.subReg x y) s
  | .shr x y => exec (.shr x y) s
  | .subnReg x y => exec (.subnReg x y) s
  | .shl x y => exec (.shl x y) s
  | .sneReg x y => exec (.sneReg x y) s
  | .ldI nnn => exec (.ldI nnn) s
  | .jpV0 nnn => exec (.jpV0 nnn) s
  | .rnd x nn => exec (.rnd x nn) s
  | .drw x y n => drwWith p x y n s
  | .skp x => skpWith p x s
  | .sknp x => sknpWith p x s
  | .ldVxDt x => exec (.ldVxDt x) s
  | .ldVxK x => exec (.ldVxK x) s
  | .ldDtVx x => exec (.ldDtVx x) s
  | .ldStVx x => exec (.ldStVx x) s
  | .addIVx x => addIVxWith p x s
  | .ldFVx x => exec (.ldFVx x) s
  | .ldBVx x => ldBVxWith p x s
  | .ldIVx x => ldIVxWith p x s
  | .ldVxI x => ldVxIWith p x s

/-- `step()` under `p` (R120). -/
def stepWith (p : Params) (s : State) : Result := stepOver (decodeWith p.decode59IgnoreN) (execWith p) s

/-- `reset()` under `p` (R311): memory holds the 80 bytes of `p.glyphRom` and zeros. -/
def hostResetWith (p : Params) (s : State) : State :=
  (hostReset s).setMem (Memory.storeBytes [] 0 (p.glyphRom.take glyphEnd))

/-- `load(bytes)` under `p` (R313). -/
def hostLoadWith (p : Params) (bytes : List Byte) (s : State) : State × Except LoadError Unit :=
  if bytes.length > maxProgram then (hostResetWith p s, .error .romTooLarge)
  else ((hostResetWith p s).setMem ((hostResetWith p s).mem.storeBytes entry.toNat bytes), .ok ())

end Sys2Proof.Machine
end

