-- ==== Sys2Proof/Safety.lean ====
section
/-! DEFINITION. The terms claims use: which states a run reaches (an invariant), a step that raises no fault, the blocked
and the parked engine, the pixels a sprite covers, and a state's frame. -/

namespace Sys2Proof.Machine

/-- The engine may run an instruction: Ready or Running (R261). -/
def State.live (s : State) : Bool := s.estate == .ready || s.estate == .running

/-- What the rules say of every state that resets, loads, steps and the other transactions leave. -/
structure State.Inv (s : State) : Prop where
  /-- memory is in its canonical form, inside the address space (R60) -/
  memWf : s.mem.wf = true
  /-- the glyph region is immutable (R61) -/
  glyphs : ∀ a, a < glyphEnd → s.mem.read a = unlistedByte a
  /-- `pc` never wraps: every value it can take is at most 0x10FE (R25) -/
  pcBound : s.pc.toNat ≤ 0x10FE
  /-- a stack entry is the address of a call that was fetched (R121) -/
  stackBound : ∀ k : Fin 16, s.stack[k].toNat ≤ 0xFFE
  /-- no operation leads back to Uninitialized (R261) -/
  initialized : s.estate ≠ .uninitialized
  /-- the fault record is written only when a fatal fault is raised (R36) -/
  faultRecord : s.estate = .faulted ↔ s.faultKind.isSome = true
  /-- with no fault recorded, `fault_pc` is as reset left it (R36) -/
  noFaultPc : s.faultKind = none → s.faultPc = 0#16

/-- A step that completes, `Ok` (R261): the safe step of a run. -/
def State.stepOk (s : State) : Prop := ∃ t, step s = .next t ∧ t.estate = .running

/-- Blocked-on-Input (R284): Running or Ready, the code at `pc` is FX0A and no key is pressed. -/
def State.blocked (s : State) : Prop :=
  s.live = true ∧ (∃ code x, fetch16 s.mem s.pc = .ok code ∧ decode code = .ok (.ldVxK x)) ∧ ∀ k : Fin 16, s.keys[k] = false

/-- Parked (R320 (b)): not Faulted, and the code at `pc` is `0x1NNN` with NNN = `pc`. -/
def State.parked (s : State) : Prop :=
  s.live = true ∧ ∃ code nnn, fetch16 s.mem s.pc = .ok code ∧ decode code = .ok (.jp nnn) ∧ nnn.toNat = s.pc.toNat

/-- The sprite bit in column `col` of row `row` falls on the pixel (x, y): wrapped around the grid pixel by pixel, or, in
`clip`, the start wrapped into the grid and the bit inside it (R213). -/
def bitFallsOn (e : DrawEdge) (x0 y0 : Byte) (col row x y : Nat) : Prop :=
  match e with
  | .wrap => x = (x0.toNat + col) % 64 ∧ y = (y0.toNat + row) % 32
  | .clip => x = x0.toNat % 64 + col ∧ x < 64 ∧ y = y0.toNat % 32 + row ∧ y < 32

/-- The pixel (x, y) is covered by the sprite of `n` rows at `I` drawn from column `x0` and row `y0` (R212): some bit of
some row is 1 and falls on it, under an edge mode (R213). Row r is the byte at `I + r`; past 0xFFF, which only
`DATA_OOB` = wrap reads, the address is taken modulo 4096 (R62). -/
def State.spriteCovers (s : State) (e : DrawEdge) (x0 y0 : Byte) (n : Nat) (x y : Nat) : Prop :=
  ∃ row col, row < n ∧ col < 8 ∧ (s.mem.read ((s.i.toNat + row) % 4096)).getLsbD (7 - col) = true ∧
    bitFallsOn e x0 y0 col row x y

/-- What an instruction may write besides `pc`. What is not named is unchanged. -/
structure Writes where
  /-- general registers -/
  regs : List Reg := []
  /-- `I` -/
  index : Bool := false
  /-- the stack and `depth` -/
  stack : Bool := false
  /-- the display and `draw_pending` -/
  display : Bool := false
  /-- `DT` -/
  dt : Bool := false
  /-- `ST` -/
  st : Bool := false
  /-- the draw counter -/
  draws : Bool := false
  /-- the first address stored to -/
  storeAt : Nat := 0
  /-- how many bytes are stored, from `storeAt` on -/
  storeLen : Nat := 0

/-- `t` agrees with `s` on everything `w` does not name, `pc` apart: each register and field reads as before, and so does
every byte of memory outside the bytes stored. -/
structure State.frame (s t : State) (w : Writes) : Prop where
  regs : ∀ z, z ∉ w.regs → t.getV z = s.getV z
  index : w.index = false → t.i = s.i
  stack : w.stack = false → t.stack = s.stack ∧ t.depth = s.depth
  mem : ∀ a, ¬(w.storeAt ≤ a ∧ a < w.storeAt + w.storeLen) → t.mem.read a = s.mem.read a
  display : w.display = false → t.display = s.display ∧ t.drawPending = s.drawPending
  dt : w.dt = false → t.dt = s.dt
  st : w.st = false → t.st = s.st
  draws : w.draws = false → t.draws = s.draws
  keys : t.keys = s.keys
  estate : t.estate = s.estate
  faultKind : t.faultKind = s.faultKind
  faultPc : t.faultPc = s.faultPc

/-- Digit `k` of store-bcd: hundreds, tens, ones (R184). -/
def bcdDigit (v : Nat) (k : Nat) : Nat := if k = 0 then v / 100 else if k = 1 then v / 10 % 10 else v % 10

/-- The registers `V[0]` to `V[x]`. -/
def regsUpTo (x : Reg) : List Reg := (List.range (x.toNat + 1)).map (BitVec.ofNat 4)

end Sys2Proof.Machine
end

