-- ==== Sys2Proof/Certificates/Slice0/Obligations.lean ====
section
/-! DEFINITION. The statements about the model, for the provers. -/

open Sys2Proof Sys2Proof.Machine

/-! ### Encoding -/

/-- Ten words: the four the source gives (R96), the example of R102, one or two of each of families 0, 8 and E, and an
unknown word of family 5. The bit positions and patterns are the spec's general-knowledge items G3 and G4 (spec/93;
log entry 11). -/
def Obligations.SampleWordsDecode : Prop :=
  decode 0x6005 = .ok (.ldImm 0 0x05) ∧ decode 0x6003 = .ok (.ldImm 0 0x03) ∧ decode 0xA22A = .ok (.ldI 0x22A) ∧
  decode 0xF055 = .ok (.ldIVx 0) ∧ decode 0xD125 = .ok (.drw 1 2 5) ∧ decode 0x00EE = .ok .ret ∧
  decode 0x00E0 = .ok .cls ∧ decode 0x845E = .ok (.shl 4 5) ∧ decode 0xE1A1 = .ok (.sknp 1) ∧ decode 0x5121 = .error (.unknownOpcode 0x5121)

/-- Decoding undoes encoding, for every well-formed instruction and whatever bytes follow. The encoding is the spec's
own inference (R102, derived) over its general-knowledge map (log entry 11). -/
def Obligations.DecodeInvertsEncode : Prop :=
  ∀ (i : Instr) (rest : List Byte), i.wellFormed = true →
    decode (encode i) = .ok i ∧ decodeBytes (encodeBytes i ++ rest) = .ok (i, rest)

/-- Encoding undoes decoding: no bit of a code that decodes is dropped. At this model's `DECODE_5_9_IGNORE_N` = false
(log entry 8; the spec's decision D10). -/
def Obligations.EncodeInvertsDecode : Prop :=
  ∀ (c : Code) (i : Instr), decode c = .ok i → encode i = c

/-- A code is the instruction of a row of R95's map exactly when it matches the row; with `DECODE_5_9_IGNORE_N`, rows
7 and 19 use the mask 0xF000. The map is the spec's general-knowledge item G4 (log entry 11) and the parameter its
decision D10. -/
def Obligations.DecodeFollowsOpcodeMap : Prop :=
  (∀ (c : Code) (o : Opcode),
    (∃ i, decodeWith false c = .ok i ∧ i.opcode = o) ↔ c &&& o.maskWord = o.matchWord) ∧
  (∀ (c : Code) (o : Opcode),
    (∃ i, decodeWith true c = .ok i ∧ i.opcode = o) ↔
      c &&& (if o = .seReg ∨ o = .sneReg then 0xF000#16 else o.maskWord) = o.matchWord)

/-- The table of R97, which the spec marks derived: which codes are unknown; families 5 and 9 have unknown codes only
while `DECODE_5_9_IGNORE_N` is false, as it is in this model (log entry 8, the spec's decision D10). -/
def Obligations.UnknownCodesAreThoseOfTheTable : Prop :=
  (∀ (ignoreN : Bool) (c : Code), decodeWith ignoreN c = .error (.unknownOpcode c) ↔
    ((Code.op c = 0x0 ∧ c ≠ 0x00E0 ∧ c ≠ 0x00EE) ∨
     (Code.op c = 0x5 ∧ Code.n c ≠ 0x0 ∧ ignoreN = false) ∨
     (Code.op c = 0x8 ∧ Code.n c ∈ [0x8, 0x9, 0xA, 0xB, 0xC, 0xD, 0xF]) ∨
     (Code.op c = 0x9 ∧ Code.n c ≠ 0x0 ∧ ignoreN = false) ∨
     (Code.op c = 0xE ∧ Code.nn c ≠ 0x9E ∧ Code.nn c ≠ 0xA1) ∨
     (Code.op c = 0xF ∧ Code.nn c ∉ [0x07, 0x0A, 0x15, 0x18, 0x1E, 0x29, 0x33, 0x55, 0x65]))) ∧
  ∀ c : Code, decode c = decodeWith false c

/-! ### Memory -/

/-- The pseudocode of `MemRead` and `MemWrite` (R62, R63), under every value of the parameters, which are the spec's
decisions D3 and D4. -/
def Obligations.DataAccessesFollowTheirPseudocode : Prop :=
  ∀ (p : Params) (m : Memory) (addr : Nat) (b : Byte),
    (addr ≤ 0xFFF → memRead p m addr = .ok (m.read addr)) ∧
    (0xFFF < addr → p.dataOob = .fault →
      memRead p m addr = .error .memoryOutOfBounds ∧ memWrite p m addr b = .error .memoryOutOfBounds) ∧
    (0xFFF < addr → p.dataOob = .wrap →
      memRead p m addr = .ok (m.read (addr % 4096)) ∧ memWrite p m addr b = memWrite p m (addr % 4096) b) ∧
    (addr ≤ 0x04F → p.glyphWrite = .ignore → memWrite p m addr b = .ok m) ∧
    (addr ≤ 0x04F → p.glyphWrite = .fault → memWrite p m addr b = .error .glyphRegionWrite) ∧
    (0x04F < addr → addr ≤ 0xFFF → ∃ m', memWrite p m addr b = .ok m' ∧
      ∀ a, m'.read a = if a = addr then b else m.read a)

/-- R64: the fetch reads two bytes, the first the most significant, and faults when `pc + 1` exceeds 0xFFF. -/
def Obligations.FetchReadsTwoBytesBigEndian : Prop :=
  ∀ (m : Memory) (pc : Word),
    (pc.toNat + 1 > 0xFFF → fetch16 m pc = .error .fetchOutOfBounds) ∧
    (pc.toNat + 1 ≤ 0xFFF → ∃ code, fetch16 m pc = .ok code ∧
      code.toNat = (m.read pc.toNat).toNat * 256 + (m.read (pc.toNat + 1)).toNat)

/-- Memories in the model's canonical form that read alike are equal, so that equal memories are equal data. The form
is the model's own (log entry 12). -/
def Obligations.CanonicalMemoriesThatReadAlikeAreEqual : Prop :=
  ∀ m m' : Memory, m.wf = true → m'.wf = true → (∀ a, m.read a = m'.read a) → m = m'

/-- What register-dump (FX55) and store-bcd (FX33) store is what a later fetch of those bytes gives: the registers, or
the digits, two by two (R74 and R316, which the spec marks derived). -/
def Obligations.FetchSeesStoredBytes : Prop :=
  ∀ (x : Reg) (s : State) (k : Nat), 0x50 ≤ s.i.toNat →
    (k < x.toNat → s.i.toNat + x.toNat ≤ 0xFFF → ∃ t, exec (.ldIVx x) s = .next t ∧
      fetch16 t.mem (BitVec.ofNat 16 (s.effAddr k)) =
        .ok (codeOfBytes (s.getV (BitVec.ofNat 4 k)) (s.getV (BitVec.ofNat 4 (k + 1))))) ∧
    (k < 2 → s.i.toNat + 2 ≤ 0xFFF → ∃ t code, exec (.ldBVx x) s = .next t ∧
      fetch16 t.mem (BitVec.ofNat 16 (s.effAddr k)) = .ok code ∧
      code.toNat = bcdDigit (s.getV x).toNat k * 256 + bcdDigit (s.getV x).toNat (k + 1))

/-! ### The step -/

/-- A step whose bytes decode to an instruction is that instruction's meaning at the state, with the engine Running
(R120). The write of `estate` stands before the meaning (log entry 14). -/
def Obligations.StepRunsDecodedInstruction : Prop :=
  ∀ (s : State) (i : Instr), s.live = true → s.pc.toNat + 1 ≤ 0xFFF →
    decode (codeOfBytes (s.mem.read s.pc.toNat) (s.mem.read (s.pc.toNat + 1))) = .ok i →
    step s = exec i { s with estate := .running }

/-- A step whose fetch would go past 0xFFF raises `FetchOutOfBounds` and changes nothing but the engine state and the
fault record (R64; R263, the spec's decision D14). -/
def Obligations.FetchOutOfBoundsFaults : Prop :=
  ∀ s : State, s.live = true → s.pc.toNat + 1 > 0xFFF →
    step s = .next { s with estate := .faulted, faultKind := some .fetchOutOfBounds, faultPc := s.pc }

/-- A step that fetches an unknown code returns `Ok` with `display_changed` = false, emits the diagnostic and changes
nothing but `pc` and the engine state (R266, the spec's decision D13). -/
def Obligations.UnknownCodeIsReportedAndSkipped : Prop :=
  ∀ (s : State) (code : Code), s.live = true → fetch16 s.mem s.pc = .ok code →
    decode code = .error (.unknownOpcode code) →
    transact .step s =
      .ok ({ s with pc := s.pc + 2#16, estate := .running }, .stepped false (some ⟨code, s.pc⟩))

/-- Every step of a live engine completes or raises a fault: it is never refused and never stands still without a next
state (R261). That a fault-raising step is a next state is the model's choice (log entry 13). -/
def Obligations.LiveStepCompletesOrFaults : Prop :=
  ∀ s : State, s.live = true → s.stepOk ∨ ∃ t, step s = .next t ∧ t.estate = .faulted

/-- R264: a step in Faulted does nothing and fails with the recorded fault. -/
def Obligations.FaultedStepFailsWithTheSameFault : Prop :=
  ∀ s : State, s.estate = .faulted →
    step s = .fault (.engineFaulted s.faultKind) ∧ transact .step s = .ok (s, .stepFailed s.faultKind)

/-- What is refused in Uninitialized, and what is not (R285, the spec's decision D22; log entry 15). -/
def Obligations.UninitializedEngineRefuses : Prop :=
  ∀ s : State, s.estate = .uninitialized →
    step s = .refused .uninitialized ∧
    (∀ op, op ∈ [HostOp.step, .tickDelay, .tickSound, .snapshot, .ackRedraw] → transact op s = .error .uninitialized) ∧
    (∀ op, op ∉ [HostOp.step, .tickDelay, .tickSound, .snapshot, .ackRedraw] → ∃ t r, transact op s = .ok (t, r))

/-- A step that raises a fault applies none of its writes; it sets the engine state and the fault record, and returns
the kind (R263, the spec's decision D14). That it is a next state is the model's choice (log entry 13). -/
def Obligations.FaultingStepHasNoEffect : Prop :=
  ∀ s t : State, step s = .next t → t.estate = .faulted →
    ∃ k, t = { s with estate := .faulted, faultKind := some k, faultPc := s.pc } ∧
      transact .step s = .ok (t, .stepFailed (some k))

/-- Which instruction raises which fault, under every value of the parameters (R265, which the spec marks derived). -/
def Obligations.EachInstructionRaisesOnlyItsFaults : Prop :=
  ∀ (p : Params) (i : Instr) (s t : State), s.estate = .running → execWith p i s = .next t → t.estate = .faulted →
    (i = .ret ∧ t.faultKind = some .stackUnderflow) ∨
    ((∃ a, i = .call a) ∧ t.faultKind = some .stackOverflow) ∨
    ((∃ x, i = .skp x ∨ i = .sknp x) ∧ t.faultKind = some .keyIndexOutOfRange) ∨
    (((∃ x y n, i = .drw x y n) ∨ ∃ x, i = .ldVxI x) ∧ t.faultKind = some .memoryOutOfBounds) ∨
    ((∃ x, i = .ldBVx x ∨ i = .ldIVx x) ∧
      (t.faultKind = some .memoryOutOfBounds ∨ t.faultKind = some .glyphRegionWrite))

/-! ### The invariant -/

/-- Reset meets the invariant of the model (Sys2Proof/Safety.lean), which gathers R25, R36, R60, R61, R121 and R261.
-/
def Obligations.ResetMeetsTheInvariant : Prop := State.reset.Inv

/-- Every step keeps the invariant: memory in canonical form, the glyph region immutable (R61), `pc` at most 0x10FE
(R25, derived), stack entries at most 0xFFE (R121, derived), no way back to Uninitialized (R261), the fault record
written exactly when a fault is raised (R36, decision D14). -/
def Obligations.StepKeepsTheInvariant : Prop :=
  ∀ s t : State, s.Inv → step s = .next t → t.Inv

/-- Every transaction of the host keeps the invariant, and `reset` and `load` establish it from any state. -/
def Obligations.TransactionsKeepTheInvariant : Prop :=
  (∀ (op : HostOp) (s t : State) (r : Response), s.Inv → transact op s = .ok (t, r) → t.Inv) ∧
  (∀ s : State, (hostReset s).Inv) ∧ ∀ (s : State) (bytes : List Byte), (hostLoad bytes s).1.Inv

/-! ### Whole-machine rules -/

/-- No step changes a byte of the glyph region, under any value of the parameters (R61; R63, the spec's decision D4).
-/
def Obligations.NoStepChangesTheGlyphRegion : Prop :=
  ∀ (p : Params) (s t : State), stepWith p s = .next t → ∀ a, a < 0x50 → t.mem.read a = s.mem.read a

/-- Only store-bcd and register-dump change memory, and only at the addresses their rules name, outside the glyph
region and inside the address space (R63, R67), at this model's `DATA_OOB` = fault and `GLYPH_WRITE` = ignore (log
entries 4 and 5). -/
def Obligations.OnlyStoresChangeMemory : Prop :=
  ∀ (i : Instr) (s t : State) (a : Nat), exec i s = .next t → t.mem.read a ≠ s.mem.read a →
    0x50 ≤ a ∧ a ≤ 0xFFF ∧
    (((∃ x, i = .ldBVx x) ∧ s.i.toNat ≤ a ∧ a ≤ s.i.toNat + 2) ∨
     ∃ x, i = .ldIVx x ∧ s.i.toNat ≤ a ∧ a ≤ s.i.toNat + x.toNat)

/-- A completed step that executes CLS or DRW sets `draw_pending` and reports `display_changed`; every other completed
step reports false, and leaves `draw_pending` and the display as they were (R215, the spec's decision D12). -/
def Obligations.OnlyClsAndDrwMarkARedraw : Prop :=
  ∀ s t : State, step s = .next t → t.estate = .running →
    ∃ dc diag, transact .step s = .ok (t, .stepped dc diag) ∧
      ((∃ i, decode (codeOfBytes (s.mem.read s.pc.toNat) (s.mem.read (s.pc.toNat + 1))) = .ok i ∧
          (i = .cls ∨ ∃ x y n, i = .drw x y n)) → dc = true ∧ t.drawPending = true) ∧
      ((¬∃ i, decode (codeOfBytes (s.mem.read s.pc.toNat) (s.mem.read (s.pc.toNat + 1))) = .ok i ∧
          (i = .cls ∨ ∃ x y n, i = .drw x y n)) →
        dc = false ∧ t.drawPending = s.drawPending ∧ t.display = s.display)

/-- `VF` changes only by an instruction that defines a flag or that names `VF` as its destination (R22, the spec's
decision D6). -/
def Obligations.VFKeepsItsValueOtherwise : Prop :=
  ∀ (p : Params) (i : Instr) (s t : State), execWith p i s = .next t → t.getV Reg.vf ≠ s.getV Reg.vf →
    (∃ x y, i = .addReg x y ∨ i = .subReg x y ∨ i = .shr x y ∨ i = .subnReg x y ∨ i = .shl x y) ∨
    (∃ x y n, i = .drw x y n) ∨
    ((∃ x, i = .addIVx x) ∧ p.addISetsVf = true) ∨
    (∃ b, i = .ldImm Reg.vf b ∨ i = .addImm Reg.vf b ∨ i = .rnd Reg.vf b) ∨
    (∃ y, i = .ldReg Reg.vf y ∨ i = .orReg Reg.vf y ∨ i = .andReg Reg.vf y ∨ i = .xorReg Reg.vf y) ∨
    i = .ldVxDt Reg.vf ∨ i = .ldVxK Reg.vf ∨ i = .ldVxI Reg.vf

/-- What each piece of state is written by, the general registers, `pc` and memory apart: `I` (R24), the stack (R28)
and `depth` (R29), `DT` (R31), `ST` (R32), the keys, which no instruction writes (R33), the display (R30) and
`draw_pending` (R34, the spec's decision D12), the draw counter (the model's own, log entry 1), and the engine state
and the fault record, which change only by taking a fault (R36 and R263, the spec's decision D14; log entry 13). The
step's own write of `estate` is outside `exec` (log entry 14). -/
def Obligations.EachFieldHasItsWriters : Prop :=
  ∀ (i : Instr) (s t : State), exec i s = .next t →
    (t.i ≠ s.i → (∃ a, i = .ldI a) ∨ ∃ x, i = .addIVx x ∨ i = .ldFVx x ∨ i = .ldIVx x ∨ i = .ldVxI x) ∧
    (t.stack ≠ s.stack → ∃ a, i = .call a) ∧
    (t.depth ≠ s.depth → i = .ret ∨ ∃ a, i = .call a) ∧
    (t.dt ≠ s.dt → ∃ x, i = .ldDtVx x) ∧
    (t.st ≠ s.st → ∃ x, i = .ldStVx x) ∧
    t.keys = s.keys ∧
    (t.display ≠ s.display ∨ t.drawPending ≠ s.drawPending → i = .cls ∨ ∃ x y n, i = .drw x y n) ∧
    (t.draws ≠ s.draws → ∃ x b, i = .rnd x b) ∧
    (t.estate ≠ s.estate ∨ t.faultKind ≠ s.faultKind ∨ t.faultPc ≠ s.faultPc → ∃ k, t = s.takeFault k)

/-- Every instruction that raises no fault, the jumps, call, return, a taken skip and a blocked wait apart, advances
`pc` by exactly 2 (R120). -/
def Obligations.OtherInstructionsAdvanceByTwo : Prop :=
  ∀ (i : Instr) (s t : State), s.estate = .running → exec i s = .next t → t.estate = .running →
    t.pc = s.pc + 2#16 ∨
    (i = .ret ∨ (∃ a, i = .jp a ∨ i = .call a ∨ i = .jpV0 a)) ∨
    ((∃ x b, i = .seImm x b ∨ i = .sneImm x b) ∨ (∃ x y, i = .seReg x y ∨ i = .sneReg x y) ∨
      ∃ x, i = .skp x ∨ i = .sknp x) ∧ t.pc = s.pc + 4#16 ∨
    (∃ x, i = .ldVxK x) ∧ t = s

/-- No instruction reads the sound timer (R32, which the spec marks derived) or the redraw flag (R34): two states that
differ there only are taken to states that differ there only, and every instruction answers a next state at every
state. -/
def Obligations.NoInstructionReadsSoundTimerOrRedrawFlag : Prop :=
  ∀ (i : Instr) (s : State) (b : Byte) (f : Bool),
    ∃ t t', exec i s = .next t ∧ exec i { s with st := b, drawPending := f } = .next t' ∧
      { t' with st := t.st, drawPending := t.drawPending } = t

/-! ### Control flow -/

/-- R124 and R125: the immediate skips. -/
def Obligations.ImmediateSkips : Prop :=
  ∀ (x : Reg) (nn : Byte) (s : State),
    exec (.seImm x nn) s = .next { s with pc := s.pc + (if s.getV x = nn then 4#16 else 2#16) } ∧
    exec (.sneImm x nn) s = .next { s with pc := s.pc + (if s.getV x ≠ nn then 4#16 else 2#16) }

/-- R126 and R127: the register skips. -/
def Obligations.RegisterSkips : Prop :=
  ∀ (x y : Reg) (s : State),
    exec (.seReg x y) s = .next { s with pc := s.pc + (if s.getV x = s.getV y then 4#16 else 2#16) } ∧
    exec (.sneReg x y) s = .next { s with pc := s.pc + (if s.getV x ≠ s.getV y then 4#16 else 2#16) }

/-- R122 and R128: jump, and jump with offset, whose sum does not wrap. -/
def Obligations.JumpsSetPc : Prop :=
  ∀ (nnn : Addr12) (s : State),
    exec (.jp nnn) s = .next { s with pc := BitVec.ofNat 16 nnn.toNat } ∧
    (∃ t, exec (.jpV0 nnn) s = .next t ∧ t.pc.toNat = nnn.toNat + (s.getV 0).toNat ∧ s.frame t {})

/-- Call pushes its own address below depth 16, and faults at depth 16 with nothing pushed (R123; the fault before the
push is the spec's decision D15). -/
def Obligations.CallPushesItsOwnAddress : Prop :=
  ∀ (nnn : Addr12) (s : State),
    (s.depth.val < 16 → ∃ t, exec (.call nnn) s = .next t ∧
      (∀ k : Fin 16, t.stack[k] = if k.val = s.depth.val then s.pc else s.stack[k]) ∧
      t.depth.val = s.depth.val + 1 ∧ t.pc.toNat = nnn.toNat ∧ s.frame t { stack := true }) ∧
    (s.depth.val = 16 → exec (.call nnn) s =
      .next { s with estate := .faulted, faultKind := some .stackOverflow, faultPc := s.pc })

/-- Return pops the last entry, which stays, and resumes after it (R121); at depth 0 it takes `StackUnderflow` and
writes nothing else (R263, the spec's decision D14). That the fault is a next state is the model's choice (log entry
13). -/
def Obligations.ReturnResumesAfterTheCall : Prop :=
  ∀ s : State,
    (∀ d : Fin 16, s.depth.val = d.val + 1 → ∃ t, exec .ret s = .next t ∧ t.depth.val = d.val ∧ t.stack = s.stack ∧
      t.pc = s.stack[d] + 2#16 ∧ s.frame t { stack := true }) ∧
    (s.depth.val = 0 → exec .ret s =
      .next { s with estate := .faulted, faultKind := some .stackUnderflow, faultPc := s.pc })

/-- A call followed at once by a return resumes after the call, with the depth, registers and memory as before (R130,
which the spec marks derived). -/
def Obligations.CallThenReturnResumesAfterTheCall : Prop :=
  ∀ (s : State) (nnn : Addr12), s.live = true → s.depth.val < 16 → s.pc.toNat + 1 ≤ 0xFFF →
    decode (codeOfBytes (s.mem.read s.pc.toNat) (s.mem.read (s.pc.toNat + 1))) = .ok (.call nnn) →
    nnn.toNat + 1 ≤ 0xFFF → s.mem.read nnn.toNat = 0x00 → s.mem.read (nnn.toNat + 1) = 0xEE →
    ∃ t u, step s = .next t ∧ step t = .next u ∧ u.pc = s.pc + 2#16 ∧ u.depth = s.depth ∧ u.v = s.v ∧ u.i = s.i ∧
      u.mem = s.mem ∧ u.estate = .running

/-! ### Arithmetic and logic -/

/-- R151 and R152: the immediate forms; add-immediate wraps and records no carry. -/
def Obligations.ImmediateForms : Prop :=
  ∀ (x : Reg) (nn : Byte) (s : State),
    (∃ t, exec (.ldImm x nn) s = .next t ∧ t.getV x = nn ∧ t.pc = s.pc + 2#16 ∧ s.frame t { regs := [x] }) ∧
    (∃ t, exec (.addImm x nn) s = .next t ∧ (t.getV x).toNat = ((s.getV x).toNat + nn.toNat) % 256 ∧
      t.pc = s.pc + 2#16 ∧ s.frame t { regs := [x] })

/-- Assign, OR, AND and XOR, bit by bit; none touches `VF` (R153 to R156; the direction of assign is R153's own
inference). -/
def Obligations.CopyAndLogicTouchNoFlag : Prop :=
  ∀ (x y : Reg) (s : State),
    (∃ t, exec (.ldReg x y) s = .next t ∧ t.getV x = s.getV y ∧ t.pc = s.pc + 2#16 ∧ s.frame t { regs := [x] }) ∧
    (∃ t, exec (.orReg x y) s = .next t ∧
      (∀ k, (t.getV x).getLsbD k = ((s.getV x).getLsbD k || (s.getV y).getLsbD k)) ∧
      t.pc = s.pc + 2#16 ∧ s.frame t { regs := [x] }) ∧
    (∃ t, exec (.andReg x y) s = .next t ∧
      (∀ k, (t.getV x).getLsbD k = ((s.getV x).getLsbD k && (s.getV y).getLsbD k)) ∧
      t.pc = s.pc + 2#16 ∧ s.frame t { regs := [x] }) ∧
    (∃ t, exec (.xorReg x y) s = .next t ∧
      (∀ k, (t.getV x).getLsbD k = ((s.getV x).getLsbD k ^^ (s.getV y).getLsbD k)) ∧
      t.pc = s.pc + 2#16 ∧ s.frame t { regs := [x] })

/-- Add wraps to 8 bits and `VF` is the carry (R157). When the destination is `VF` the flag wins and the sum is lost:
the spec's decision D6 (R150, conflict C7; log entry 20). -/
def Obligations.AddSetsCarry : Prop :=
  ∀ (x y : Reg) (s : State), ∃ t, exec (.addReg x y) s = .next t ∧
    (x ≠ Reg.vf → (t.getV x).toNat = ((s.getV x).toNat + (s.getV y).toNat) % 256) ∧
    (t.getV Reg.vf).toNat = (if (s.getV x).toNat + (s.getV y).toNat > 255 then 1 else 0) ∧
    t.pc = s.pc + 2#16 ∧ s.frame t { regs := [x, Reg.vf] }

/-- Both subtractions wrap to 8 bits and `VF` is 0 exactly on a borrow (R158, R160). When the destination is `VF` the
flag wins and the difference is lost: the spec's decision D6 (R150, conflict C7; log entry 20). -/
def Obligations.SubtractionsSetNotBorrow : Prop :=
  ∀ (x y : Reg) (s : State),
    (∃ t, exec (.subReg x y) s = .next t ∧
      (x ≠ Reg.vf → (t.getV x).toNat = ((s.getV x).toNat + 256 - (s.getV y).toNat) % 256) ∧
      (t.getV Reg.vf).toNat = (if (s.getV y).toNat > (s.getV x).toNat then 0 else 1) ∧
      t.pc = s.pc + 2#16 ∧ s.frame t { regs := [x, Reg.vf] }) ∧
    (∃ t, exec (.subnReg x y) s = .next t ∧
      (x ≠ Reg.vf → (t.getV x).toNat = ((s.getV y).toNat + 256 - (s.getV x).toNat) % 256) ∧
      (t.getV Reg.vf).toNat = (if (s.getV x).toNat > (s.getV y).toNat then 0 else 1) ∧
      t.pc = s.pc + 2#16 ∧ s.frame t { regs := [x, Reg.vf] })

/-- The shifts move `V[X]` by one, whatever Y names, and `VF` is the bit shifted out (R159, R161). When the
destination is `VF` the flag wins and the shifted value is lost: the spec's decision D6 (R150, conflict C7; log entry
20). -/
def Obligations.ShiftsSetTheBitShiftedOut : Prop :=
  ∀ (x y : Reg) (s : State),
    (∃ t, exec (.shr x y) s = .next t ∧ (x ≠ Reg.vf → (t.getV x).toNat = (s.getV x).toNat / 2) ∧
      (t.getV Reg.vf).toNat = (s.getV x).toNat % 2 ∧ t.pc = s.pc + 2#16 ∧ s.frame t { regs := [x, Reg.vf] }) ∧
    (∃ t, exec (.shl x y) s = .next t ∧ (x ≠ Reg.vf → (t.getV x).toNat = (s.getV x).toNat * 2 % 256) ∧
      (t.getV Reg.vf).toNat = (s.getV x).toNat / 128 ∧ t.pc = s.pc + 2#16 ∧ s.frame t { regs := [x, Reg.vf] })

/-- Random-and ANDs the draw's free byte with NN, takes one draw, and clears the bits outside NN (R162; R163, the
spec's decision D11). The draw counter is the model's own (log entry 1); nothing rests on a value of it. -/
def Obligations.RandomAndMasksAFreeByte : Prop :=
  ∀ (x : Reg) (nn : Byte) (s : State), ∃ t, exec (.rnd x nn) s = .next t ∧
    t.getV x = Config.randomByte s.draws &&& nn ∧ t.getV x &&& ~~~nn = 0#8 ∧ t.draws = s.draws + 1 ∧
    t.pc = s.pc + 2#16 ∧ s.frame t { regs := [x], draws := true }

/-! ### The index register and memory -/

/-- R181 and R183: set-index, and index-to-glyph, which multiplies the whole register value by 5. -/
def Obligations.IndexIsSetWhole : Prop :=
  (∀ (nnn : Addr12) (s : State), ∃ t, exec (.ldI nnn) s = .next t ∧ t.i.toNat = nnn.toNat ∧ t.pc = s.pc + 2#16 ∧
    s.frame t { index := true }) ∧
  (∀ (x : Reg) (s : State), ∃ t, exec (.ldFVx x) s = .next t ∧ t.i.toNat = (s.getV x).toNat * 5 ∧ t.pc = s.pc + 2#16 ∧
    s.frame t { index := true })

/-- Add-to-index keeps 16 bits of the sum and, when `ADD_I_SETS_VF` is true as it is in this model (log entry 7), sets
`VF` to whether the sum exceeds 0xFFF (R182, the spec's decision D8). -/
def Obligations.AddToIndexSetsOverflow : Prop :=
  ∀ (x : Reg) (s : State),
    (∃ t, exec (.addIVx x) s = .next t ∧ t.i.toNat = (s.i.toNat + (s.getV x).toNat) % 65536 ∧
      (t.getV Reg.vf).toNat = (if s.i.toNat + (s.getV x).toNat > 0xFFF then 1 else 0) ∧
      t.pc = s.pc + 2#16 ∧ s.frame t { regs := [Reg.vf], index := true }) ∧
    (∀ p : Params, p.addISetsVf = true → execWith p (.addIVx x) s = exec (.addIVx x) s) ∧
    (∀ p : Params, p.addISetsVf = false → ∃ t, execWith p (.addIVx x) s = .next t ∧
      t.i.toNat = (s.i.toNat + (s.getV x).toNat) % 65536 ∧ t.pc = s.pc + 2#16 ∧ s.frame t { index := true })

/-- Store-bcd writes the three decimal digits at `I`, `I + 1`, `I + 2` and leaves `I` (R184); under every value of
`DATA_OOB` and `GLYPH_WRITE`, when it completes, what it stores and drops, and which fault it raises otherwise. `exec`
is at this model's `DATA_OOB` = fault and `GLYPH_WRITE` = ignore (log entries 4 and 5; the spec's decisions D3 and
D4). -/
def Obligations.StoreBcdWritesThreeDigits : Prop :=
  ∀ (x : Reg) (s : State),
    (s.i.toNat + 2 ≤ 0xFFF → ∃ t, exec (.ldBVx x) s = .next t ∧
      (∀ k, k < 3 → 0x50 ≤ s.effAddr k → (t.mem.read (s.effAddr k)).toNat = bcdDigit (s.getV x).toNat k) ∧
      (∀ a, a < 0x50 → t.mem.read a = s.mem.read a) ∧
      t.pc = s.pc + 2#16 ∧ s.frame t { storeAt := s.effAddr 0, storeLen := 3 }) ∧
    (0xFFF < s.i.toNat + 2 → exec (.ldBVx x) s =
      .next { s with estate := .faulted, faultKind := some .memoryOutOfBounds, faultPc := s.pc }) ∧
    ∀ p : Params,
      (p.dataOob = .fault → 0xFFF < s.i.toNat + 2 → execWith p (.ldBVx x) s =
        .next { s with estate := .faulted, faultKind := some .memoryOutOfBounds, faultPc := s.pc }) ∧
      ((p.dataOob = .fault → s.i.toNat + 2 ≤ 0xFFF) → p.glyphWrite = .fault →
        (∃ k, k < 3 ∧ s.effAddr k % 4096 < 0x50) → execWith p (.ldBVx x) s =
          .next { s with estate := .faulted, faultKind := some .glyphRegionWrite, faultPc := s.pc }) ∧
      ((p.dataOob = .fault → s.i.toNat + 2 ≤ 0xFFF) →
        (p.glyphWrite = .fault → ∀ k, k < 3 → 0x50 ≤ s.effAddr k % 4096) →
        ∃ t, execWith p (.ldBVx x) s = .next t ∧ t = { s with mem := t.mem, pc := s.pc + 2#16 } ∧
          (∀ k, k < 3 → 0x50 ≤ s.effAddr k % 4096 →
            (t.mem.read (s.effAddr k % 4096)).toNat = bcdDigit (s.getV x).toNat k) ∧
          ∀ a, (a < 0x50 ∨ ∀ k, k < 3 → s.effAddr k % 4096 ≠ a) → t.mem.read a = s.mem.read a)

/-- Register-dump stores `V[0]` to `V[X]` at `I` on and moves `I` X + 1 on (R185); under every value of `DATA_OOB` and
`GLYPH_WRITE`, when it completes, what it stores and drops, and which fault it raises otherwise. `exec` is at this
model's `DATA_OOB` = fault and `GLYPH_WRITE` = ignore (log entries 4 and 5; the spec's decisions D3 and D4). -/
def Obligations.RegisterDumpStoresRegisters : Prop :=
  ∀ (x : Reg) (s : State),
    (s.i.toNat + x.toNat ≤ 0xFFF → ∃ t, exec (.ldIVx x) s = .next t ∧
      (∀ k : Reg, k.toNat ≤ x.toNat → 0x50 ≤ s.effAddr k.toNat → t.mem.read (s.effAddr k.toNat) = s.getV k) ∧
      (∀ a, a < 0x50 → t.mem.read a = s.mem.read a) ∧
      t.i.toNat = (s.i.toNat + x.toNat + 1) % 65536 ∧ t.pc = s.pc + 2#16 ∧
      s.frame t { index := true, storeAt := s.effAddr 0, storeLen := x.toNat + 1 }) ∧
    (0xFFF < s.i.toNat + x.toNat → exec (.ldIVx x) s =
      .next { s with estate := .faulted, faultKind := some .memoryOutOfBounds, faultPc := s.pc }) ∧
    ∀ p : Params,
      (p.dataOob = .fault → 0xFFF < s.i.toNat + x.toNat → execWith p (.ldIVx x) s =
        .next { s with estate := .faulted, faultKind := some .memoryOutOfBounds, faultPc := s.pc }) ∧
      ((p.dataOob = .fault → s.i.toNat + x.toNat ≤ 0xFFF) → p.glyphWrite = .fault →
        (∃ k, k ≤ x.toNat ∧ s.effAddr k % 4096 < 0x50) → execWith p (.ldIVx x) s =
          .next { s with estate := .faulted, faultKind := some .glyphRegionWrite, faultPc := s.pc }) ∧
      ((p.dataOob = .fault → s.i.toNat + x.toNat ≤ 0xFFF) →
        (p.glyphWrite = .fault → ∀ k, k ≤ x.toNat → 0x50 ≤ s.effAddr k % 4096) →
        ∃ t, execWith p (.ldIVx x) s = .next t ∧
          t = { s with mem := t.mem, i := BitVec.ofNat 16 (s.i.toNat + x.toNat + 1), pc := s.pc + 2#16 } ∧
          (∀ k : Reg, k.toNat ≤ x.toNat → 0x50 ≤ s.effAddr k.toNat % 4096 →
            t.mem.read (s.effAddr k.toNat % 4096) = s.getV k) ∧
          ∀ a, (a < 0x50 ∨ ∀ k, k ≤ x.toNat → s.effAddr k % 4096 ≠ a) → t.mem.read a = s.mem.read a)

/-- Register-load fills `V[0]` to `V[X]` from `I` on and moves `I` X + 1 on (R186), under every value of `DATA_OOB`.
`exec` is at this model's `DATA_OOB` = fault (log entry 4; the spec's decision D3). -/
def Obligations.RegisterLoadFillsRegisters : Prop :=
  ∀ (x : Reg) (s : State),
    (s.i.toNat + x.toNat ≤ 0xFFF → ∃ t, exec (.ldVxI x) s = .next t ∧
      (∀ k : Reg, k.toNat ≤ x.toNat → t.getV k = s.mem.read (s.effAddr k.toNat)) ∧
      t.i.toNat = (s.i.toNat + x.toNat + 1) % 65536 ∧ t.pc = s.pc + 2#16 ∧
      s.frame t { regs := regsUpTo x, index := true }) ∧
    (0xFFF < s.i.toNat + x.toNat → exec (.ldVxI x) s =
      .next { s with estate := .faulted, faultKind := some .memoryOutOfBounds, faultPc := s.pc }) ∧
    ∀ p : Params,
      (p.dataOob = .fault → 0xFFF < s.i.toNat + x.toNat → execWith p (.ldVxI x) s =
        .next { s with estate := .faulted, faultKind := some .memoryOutOfBounds, faultPc := s.pc }) ∧
      ((p.dataOob = .fault → s.i.toNat + x.toNat ≤ 0xFFF) →
        ∃ t, execWith p (.ldVxI x) s = .next t ∧
          t = { s with v := t.v, i := BitVec.ofNat 16 (s.i.toNat + x.toNat + 1), pc := s.pc + 2#16 } ∧
          ∀ k : Reg, t.getV k = if k.toNat ≤ x.toNat then s.mem.read (s.effAddr k.toNat % 4096) else s.getV k)

/-- Register-dump followed by register-load from the same index and the same X gives the registers back, and both leave
`I` X + 1 on (R185, R186). -/
def Obligations.DumpThenLoadGivesRegistersBack : Prop :=
  ∀ (x : Reg) (s : State), 0x50 ≤ s.i.toNat → s.i.toNat + x.toNat ≤ 0xFFF →
    ∃ t u, exec (.ldIVx x) s = .next t ∧ exec (.ldVxI x) { t with i := s.i } = .next u ∧ u.v = s.v ∧
      t.i.toNat = s.i.toNat + x.toNat + 1 ∧ u.i = t.i

/-! ### The display -/

/-- R211: clear-screen. -/
def Obligations.ClearScreenClearsEveryPixel : Prop :=
  ∀ s : State, ∃ t, exec .cls s = .next t ∧ (∀ x y, Display.pixel t.display x y = false) ∧ t.drawPending = true ∧
    t.pc = s.pc + 2#16 ∧ s.frame t { display := true }

/-- R212: draw-sprite flips exactly the pixels the sprite covers and `VF` says whether one of them was set; an access past
0xFFF faults with nothing drawn. `exec` is at this model's `DRAW_EDGE` = wrap and `DATA_OOB` = fault (log entries 3 and 4;
the spec's decisions D7 and D3); the last clause is under every value of the parameters. -/
def Obligations.DrawSpriteFlipsWhatItCovers : Prop :=
  ∀ (x y : Reg) (n : Nibble) (s : State),
    (n.toNat = 0 ∨ s.i.toNat + n.toNat - 1 ≤ 0xFFF → ∃ t, exec (.drw x y n) s = .next t ∧
      (∀ px py, px < 64 → py < 32 →
        (s.spriteCovers .wrap (s.getV x) (s.getV y) n.toNat px py →
          Display.pixel t.display px py = !Display.pixel s.display px py) ∧
        (¬s.spriteCovers .wrap (s.getV x) (s.getV y) n.toNat px py →
          Display.pixel t.display px py = Display.pixel s.display px py)) ∧
      ((∃ px py, s.spriteCovers .wrap (s.getV x) (s.getV y) n.toNat px py ∧ Display.pixel s.display px py = true) →
        t.getV Reg.vf = 1#8) ∧
      ((¬∃ px py, s.spriteCovers .wrap (s.getV x) (s.getV y) n.toNat px py ∧ Display.pixel s.display px py = true) →
        t.getV Reg.vf = 0#8) ∧
      t.drawPending = true ∧ t.pc = s.pc + 2#16 ∧ s.frame t { regs := [Reg.vf], display := true }) ∧
    (n.toNat ≠ 0 → 0xFFF < s.i.toNat + n.toNat - 1 → exec (.drw x y n) s =
      .next { s with estate := .faulted, faultKind := some .memoryOutOfBounds, faultPc := s.pc }) ∧
    ∀ p : Params,
      (p.dataOob = .fault → n.toNat ≠ 0 → 0xFFF < s.i.toNat + n.toNat - 1 → execWith p (.drw x y n) s =
        .next { s with estate := .faulted, faultKind := some .memoryOutOfBounds, faultPc := s.pc }) ∧
      ((p.dataOob = .fault → n.toNat = 0 ∨ s.i.toNat + n.toNat - 1 ≤ 0xFFF) →
        ∃ t, execWith p (.drw x y n) s = .next t ∧
          t = { s with v := t.v, display := t.display, drawPending := true, pc := s.pc + 2#16 } ∧
          ∀ z, z ≠ Reg.vf → t.getV z = s.getV z)

/-- The two edge modes (R213, the spec's decision D7); under either, and under either value of `DATA_OOB`, draw-sprite
flips exactly the pixels the sprite covers in that mode, and `VF` is 1 or 0 as one of them was set. -/
def Obligations.BothEdgeModesFlipWhatTheyCover : Prop :=
  ∀ (p : Params) (x y : Reg) (n : Nibble) (s : State),
    (p.dataOob = .fault → n.toNat = 0 ∨ s.i.toNat + n.toNat - 1 ≤ 0xFFF) →
    ∃ t, execWith p (.drw x y n) s = .next t ∧
      (∀ px py, px < 64 → py < 32 →
        (s.spriteCovers p.drawEdge (s.getV x) (s.getV y) n.toNat px py →
          Display.pixel t.display px py = !Display.pixel s.display px py) ∧
        (¬s.spriteCovers p.drawEdge (s.getV x) (s.getV y) n.toNat px py →
          Display.pixel t.display px py = Display.pixel s.display px py)) ∧
      (t.getV Reg.vf = 1#8 ∨ t.getV Reg.vf = 0#8) ∧
      (t.getV Reg.vf = 1#8 ↔
        ∃ px py, s.spriteCovers p.drawEdge (s.getV x) (s.getV y) n.toNat px py ∧ Display.pixel s.display px py = true)

/-- Drawing the same sprite at the same place twice restores the display, and the second draw's `VF` is 1 exactly when
the first turned some pixel from 0 to 1, under every value of the parameters (R216, which the spec marks derived). -/
def Obligations.DrawingTwiceRestoresTheDisplay : Prop :=
  ∀ (p : Params) (x y : Reg) (n : Nibble) (s : State), x ≠ Reg.vf → y ≠ Reg.vf →
    (p.dataOob = .fault → n.toNat = 0 ∨ s.i.toNat + n.toNat - 1 ≤ 0xFFF) →
    ∃ t u, execWith p (.drw x y n) s = .next t ∧ execWith p (.drw x y n) t = .next u ∧ u.display = s.display ∧
      (u.getV Reg.vf = 1#8 ↔ ∃ px py, Display.pixel s.display px py = false ∧ Display.pixel t.display px py = true)

/-! ### Keys and timers -/

/-- The key skips read the key named by the whole value of `V[X]` (R230, R231); above 15 they fault, or use its low
nibble, as `KEY_INDEX_OOB` says (R236, the spec's decision D9; log entry 6). -/
def Obligations.KeySkipsReadTheKey : Prop :=
  ∀ (x : Reg) (s : State),
    (∀ k : Fin 16, (s.getV x).toNat = k.val →
      exec (.skp x) s = .next { s with pc := s.pc + (if s.keys[k] = true then 4#16 else 2#16) } ∧
      exec (.sknp x) s = .next { s with pc := s.pc + (if s.keys[k] = false then 4#16 else 2#16) }) ∧
    (15 < (s.getV x).toNat →
      exec (.skp x) s = .next { s with estate := .faulted, faultKind := some .keyIndexOutOfRange, faultPc := s.pc } ∧
      exec (.sknp x) s = .next { s with estate := .faulted, faultKind := some .keyIndexOutOfRange, faultPc := s.pc }) ∧
    (∀ p : Params, p.keyIndexOob = .fault →
      execWith p (.skp x) s = exec (.skp x) s ∧ execWith p (.sknp x) s = exec (.sknp x) s) ∧
    (∀ (p : Params) (k : Fin 16), p.keyIndexOob = .lowNibble → (s.getV x).toNat % 16 = k.val →
      execWith p (.skp x) s = .next { s with pc := s.pc + (if s.keys[k] = true then 4#16 else 2#16) } ∧
      execWith p (.sknp x) s = .next { s with pc := s.pc + (if s.keys[k] = false then 4#16 else 2#16) })

/-- R232, R234 and R235: the timer read and the timer writes, none of which decrements a timer. -/
def Obligations.TimerInstructionsMoveWholeValues : Prop :=
  ∀ (x : Reg) (s : State),
    (∃ t, exec (.ldVxDt x) s = .next t ∧ t.getV x = s.dt ∧ t.pc = s.pc + 2#16 ∧ s.frame t { regs := [x] }) ∧
    (∃ t, exec (.ldDtVx x) s = .next t ∧ t.dt = s.getV x ∧ t.pc = s.pc + 2#16 ∧ s.frame t { dt := true }) ∧
    (∃ t, exec (.ldStVx x) s = .next t ∧ t.st = s.getV x ∧ t.pc = s.pc + 2#16 ∧ s.frame t { st := true })

/-- Wait-for-key takes the lowest pressed key, or changes nothing while no key is pressed (R233; that a key already
held ends the wait is the spec's decision D23). -/
def Obligations.WaitForKeyTakesTheLowestKey : Prop :=
  ∀ (x : Reg) (s : State),
    ((∀ k : Fin 16, s.keys[k] = false) → exec (.ldVxK x) s = .next s) ∧
    (∀ k : Fin 16, s.keys[k] = true → (∀ j : Fin 16, j.val < k.val → s.keys[j] = false) →
      ∃ t, exec (.ldVxK x) s = .next t ∧ (t.getV x).toNat = k.val ∧ t.pc = s.pc + 2#16 ∧ s.frame t { regs := [x] })

/-- A blocked engine stays as it is, but for Ready becoming Running, over any number of steps, and each step returns
`Ok` with `display_changed` = false and no diagnostic (R284). -/
def Obligations.BlockedEngineWaitsUnchanged : Prop :=
  ∀ (s : State) (n : Nat), s.blocked →
    core.run (n + 1) s = .next { s with estate := .running } ∧
    transact .step s = .ok ({ s with estate := .running }, .stepped false none)

/-! ### The host's operations -/

/-- The state `reset` leaves, from any state (R311); the keys are unchanged and the fault record is cleared (the
spec's decisions D17 and D14), the glyph bytes are its decision D19. The draw counter, the model's own field, is left
as it was (log entries 1 and 16). -/
def Obligations.ResetLeavesTheResetState : Prop :=
  ∀ s : State, ∃ t, transact .reset s = .ok (t, .done) ∧
    (∀ z, t.getV z = 0#8) ∧ t.i = 0#16 ∧ (∀ k : Fin 16, t.stack[k] = 0#16) ∧ t.depth = 0 ∧
    (∀ k (h : k < 80), ∃ b, glyphRom[k]? = some b ∧ t.mem.read k = b) ∧ (∀ a, 80 ≤ a → t.mem.read a = 0#8) ∧
    (∀ x y, Display.pixel t.display x y = false) ∧ t.dt = 0#8 ∧ t.st = 0#8 ∧ t.drawPending = false ∧
    t.faultKind = none ∧ t.faultPc = 0#16 ∧ t.pc = 0x200#16 ∧ t.estate = .ready ∧ t.keys = s.keys ∧ t.draws = s.draws

/-- `load` resets and copies at most 3584 bytes to 0x200; a longer program fails and leaves the reset state (R313, the
spec's decision D16). -/
def Obligations.LoadCopiesTheProgram : Prop :=
  ∀ (bytes : List Byte) (s : State),
    (bytes.length ≤ 3584 → ∃ t, transact (.load bytes) s = .ok (t, .done) ∧ t.pc = 0x200#16 ∧ t.estate = .ready ∧
      (∀ k (h : k < bytes.length), t.mem.read (0x200 + k) = bytes[k]) ∧
      (∀ a, a < 0x200 ∨ 0x200 + bytes.length ≤ a → t.mem.read a = (hostReset s).mem.read a) ∧
      t = { hostReset s with mem := t.mem }) ∧
    (3584 < bytes.length → transact (.load bytes) s = .ok (hostReset s, .loadFailed .romTooLarge))

/-- The ticks decrement their timer if it is positive, in every engine state but Uninitialized (R273, the spec's
decision D26). -/
def Obligations.TicksDecrementIfPositive : Prop :=
  ∀ s : State, s.estate ≠ .uninitialized →
    (∃ t, transact .tickDelay s = .ok (t, .done) ∧ t.dt.toNat = s.dt.toNat - 1 ∧ t = { s with dt := t.dt }) ∧
    (∃ t, transact .tickSound s = .ok (t, .done) ∧ t.st.toNat = s.st.toNat - 1 ∧ t = { s with st := t.st })

/-- The other host operations: the key input (R276), the redraw acknowledgement (R277), the snapshot (R214) and the
status read with the sound output (R274, the spec's decision D20). -/
def Obligations.OtherHostOperations : Prop :=
  ∀ s : State,
    (∀ (k : Fin 16) (p : Bool), ∃ t, transact (.setKeyPressed k p) s = .ok (t, .done) ∧ t.keys[k] = p ∧
      (∀ j : Fin 16, j ≠ k → t.keys[j] = s.keys[j]) ∧ t = { s with keys := t.keys }) ∧
    (s.estate ≠ .uninitialized → transact .ackRedraw s = .ok ({ s with drawPending := false }, .done)) ∧
    (s.estate ≠ .uninitialized → transact .snapshot s = .ok (s, .pixels s.display) ∧
      ∀ x y, x < 64 → y < 32 → snapshotBit s (y * 64 + x) = Display.pixel s.display x y) ∧
    (∃ st, transact .status s = .ok (s, .status st) ∧ st.estate = s.estate ∧ st.faultKind = s.faultKind ∧
      st.faultPc = s.faultPc ∧ st.drawPending = s.drawPending ∧ (st.soundActive = true ↔ s.st.toNat ≠ 0))

/-- A parked engine stays as it is over any number of steps, but for Ready becoming Running (R320 case (b), the spec's
decision D28). -/
def Obligations.ParkedEngineStaysPut : Prop :=
  ∀ (s : State) (n : Nat), s.parked → core.run (n + 1) s = .next { s with estate := .running }

/-- The meanings, the step, the reset and the load under named parameters agree, at this model's parameters (log
entries 3 to 9), with the machine's. -/
def Obligations.NamedParametersAgreeWithTheMachine : Prop :=
  (∀ (i : Instr) (s : State), execWith params i s = exec i s) ∧ (∀ s : State, stepWith params s = step s) ∧
  (∀ s : State, hostResetWith params s = hostReset s) ∧
  ∀ (bytes : List Byte) (s : State), hostLoadWith params bytes s = hostLoad bytes s
end

