-- ==== Sys2Proof/Laws/Decode.lean ====
section
/-! SUPPORT. The fields of a code put together from fields: how the decoder's extractions meet the encoder's shifts. -/

namespace Sys2Proof

/-! ### Well-formedness -/

/-- An instruction carries its fields at their widths, so it is well formed. -/
theorem Instr.wellFormed_true (i : Instr) : i.wellFormed = true := by
  have nib : ∀ x : BitVec 4, fitsNibble x.toNat = true := fun x => decide_eq_true x.isLt
  have byt : ∀ b : Byte, fitsByte b.toNat = true := fun b => decide_eq_true b.isLt
  have adr : ∀ a : Addr12, fitsAddr a.toNat = true := fun a => decide_eq_true a.isLt
  cases i <;>
    simp [Instr.wellFormed, RawInstr.wellFormed, Instr.toRaw, Instr.opcode, Instr.fields, Opcode.format, RawFields.fit,
      nib, byt, adr]

/-- The instruction a line stands for is the one whose line it is. -/
theorem Instr.toInstr_toRaw (i : Instr) : i.toRaw.toInstr = some i := by
  have h := Instr.wellFormed_true i
  rw [Instr.wellFormed] at h
  rw [RawInstr.toInstr, if_pos h]
  cases i <;> simp [Instr.toRaw, Instr.opcode, Instr.fields]

/-! ### Fields of an OR of parts -/

@[simp] theorem Code.op_or (a b : Code) : Code.op (a ||| b) = Code.op a ||| Code.op b := BitVec.extractLsb'_or
@[simp] theorem Code.x_or (a b : Code) : Code.x (a ||| b) = Code.x a ||| Code.x b := BitVec.extractLsb'_or
@[simp] theorem Code.y_or (a b : Code) : Code.y (a ||| b) = Code.y a ||| Code.y b := BitVec.extractLsb'_or
@[simp] theorem Code.n_or (a b : Code) : Code.n (a ||| b) = Code.n a ||| Code.n b := BitVec.extractLsb'_or
@[simp] theorem Code.nn_or (a b : Code) : Code.nn (a ||| b) = Code.nn a ||| Code.nn b := BitVec.extractLsb'_or
@[simp] theorem Code.nnn_or (a b : Code) : Code.nnn (a ||| b) = Code.nnn a ||| Code.nnn b := BitVec.extractLsb'_or

/-! ### Fields of one operand at its place -/

@[simp] theorem Code.op_fieldX (x : Reg) : Code.op (zext16 x <<< 8) = 0 := by revert x; decide
@[simp] theorem Code.x_fieldX (x : Reg) : Code.x (zext16 x <<< 8) = x := by revert x; decide
@[simp] theorem Code.y_fieldX (x : Reg) : Code.y (zext16 x <<< 8) = 0 := by revert x; decide
@[simp] theorem Code.n_fieldX (x : Reg) : Code.n (zext16 x <<< 8) = 0 := by revert x; decide
@[simp] theorem Code.nn_fieldX (x : Reg) : Code.nn (zext16 x <<< 8) = 0 := by revert x; decide

@[simp] theorem Code.op_fieldY (y : Reg) : Code.op (zext16 y <<< 4) = 0 := by revert y; decide
@[simp] theorem Code.x_fieldY (y : Reg) : Code.x (zext16 y <<< 4) = 0 := by revert y; decide
@[simp] theorem Code.y_fieldY (y : Reg) : Code.y (zext16 y <<< 4) = y := by revert y; decide
@[simp] theorem Code.n_fieldY (y : Reg) : Code.n (zext16 y <<< 4) = 0 := by revert y; decide

@[simp] theorem Code.op_fieldN (n : Nibble) : Code.op (zext16 n) = 0 := by revert n; decide
@[simp] theorem Code.x_fieldN (n : Nibble) : Code.x (zext16 n) = 0 := by revert n; decide
@[simp] theorem Code.y_fieldN (n : Nibble) : Code.y (zext16 n) = 0 := by revert n; decide
@[simp] theorem Code.n_fieldN (n : Nibble) : Code.n (zext16 n) = n := by revert n; decide

@[simp] theorem Code.op_fieldNN (b : Byte) : Code.op (zext16 b) = 0 := by
  apply BitVec.eq_of_toNat_eq
  simp [Code.op, BitVec.extractLsb'_toNat, Nat.shiftRight_eq_div_pow]; omega
@[simp] theorem Code.x_fieldNN (b : Byte) : Code.x (zext16 b) = 0 := by
  apply BitVec.eq_of_toNat_eq
  simp [Code.x, BitVec.extractLsb'_toNat, Nat.shiftRight_eq_div_pow]; omega
@[simp] theorem Code.nn_fieldNN (b : Byte) : Code.nn (zext16 b) = b := by
  apply BitVec.eq_of_toNat_eq
  simp [Code.nn, BitVec.extractLsb'_toNat]; omega

@[simp] theorem Code.op_fieldNNN (a : Addr12) : Code.op (zext16 a) = 0 := by
  apply BitVec.eq_of_toNat_eq
  simp [Code.op, BitVec.extractLsb'_toNat, Nat.shiftRight_eq_div_pow]; omega
@[simp] theorem Code.nnn_fieldNNN (a : Addr12) : Code.nnn (zext16 a) = a := by
  apply BitVec.eq_of_toNat_eq
  simp [Code.nnn, BitVec.extractLsb'_toNat]; omega

/-- A code is its two bytes. -/
theorem codeOfBytes_extract (c : Code) : codeOfBytes (c.extractLsb' 8 8) (c.extractLsb' 0 8) = c := by
  apply BitVec.eq_of_getLsbD_eq
  intro k hk
  simp only [codeOfBytes, BitVec.getLsbD_append, BitVec.getLsbD_extractLsb']
  by_cases h : k < 8
  · simp [h]
  · have : 8 + (k - 8) = k := by omega
    simp [h, this]
    omega

end Sys2Proof
end

