-- ==== Sys2Proof/Laws/Memory.lean ====
section
/-! SUPPORT. The laws of memory: what a read gives after a store, and that every operation keeps the canonical form. -/

namespace Sys2Proof.Machine

/-- The longest program fills memory from the entry point to the end (R8). -/
theorem maxProgram_eq : maxProgram = memSize - entry.toNat := rfl

/-! ### Reading after a store -/

theorem Memory.read_erase_same (m : Memory) (a : Nat) : (m.erase a).read a = unlistedByte a := by
  induction m with
  | nil => rfl
  | cons c rest ih =>
    obtain ⟨a', b⟩ := c
    by_cases h : a' = a
    · simpa [Memory.erase, h] using ih
    · simpa [Memory.erase, Memory.read, h, Ne.symm h] using ih

theorem Memory.read_erase_ne (m : Memory) (a z : Nat) (h : z ≠ a) : (m.erase a).read z = m.read z := by
  induction m with
  | nil => rfl
  | cons c rest ih =>
    obtain ⟨a', b⟩ := c
    by_cases ha : a' = a
    · have hz : z ≠ a' := by omega
      simpa [Memory.erase, Memory.read, ha, h] using ih
    · have : Memory.read ((a', b) :: Memory.erase rest a) z = Memory.read ((a', b) :: rest) z := by
        simp only [Memory.read, ih]
      simpa [Memory.erase, ha] using this

theorem Memory.read_insert_same (m : Memory) (a : Nat) (b : Byte) (h : ∀ c ∈ m, c.1 ≠ a) : (m.insert a b).read a = b := by
  induction m with
  | nil => simp [Memory.insert, Memory.read]
  | cons c rest ih =>
    obtain ⟨a', b'⟩ := c
    have h' : a' ≠ a := h (a', b') List.mem_cons_self
    simp only [Memory.insert]
    split
    · simp [Memory.read]
    · rw [Memory.read, if_neg (Ne.symm h')]
      exact ih (fun c hc => h c (List.mem_cons_of_mem _ hc))

theorem Memory.read_insert_ne (m : Memory) (a z : Nat) (b : Byte) (h : z ≠ a) : (m.insert a b).read z = m.read z := by
  induction m with
  | nil => simp [Memory.insert, Memory.read, h]
  | cons c rest ih =>
    obtain ⟨a', b'⟩ := c
    simp only [Memory.insert]
    split
    · rw [Memory.read, if_neg h]
    · simp only [Memory.read, ih]

theorem Memory.mem_erase_ne (m : Memory) (a : Nat) : ∀ c ∈ m.erase a, c.1 ≠ a := by
  intro c hc
  simpa using (List.mem_filter.mp hc).2

/-- A read after a store to the same address gives the byte stored. -/
@[simp] theorem Memory.read_store_same (m : Memory) (a : Nat) (b : Byte) : (m.store a b).read a = b := by
  unfold Memory.store
  split
  · rename_i h; rw [Memory.read_erase_same, h]
  · exact Memory.read_insert_same _ _ _ (Memory.mem_erase_ne m a)

/-- A store leaves every other address alone. -/
@[simp] theorem Memory.read_store_ne (m : Memory) (a z : Nat) (b : Byte) (h : z ≠ a) : (m.store a b).read z = m.read z := by
  unfold Memory.store
  split
  · exact Memory.read_erase_ne m a z h
  · rw [Memory.read_insert_ne _ _ _ _ h, Memory.read_erase_ne m a z h]

/-- Bytes stored at rising addresses leave every address outside them alone. -/
theorem Memory.read_storeBytes_out (bs : List Byte) (m : Memory) (a z : Nat) (h : z < a ∨ a + bs.length ≤ z) :
    (m.storeBytes a bs).read z = m.read z := by
  induction bs generalizing m a with
  | nil => rfl
  | cons b bs ih =>
    simp only [List.length_cons] at h
    rw [Memory.storeBytes, ih _ _ (by omega), Memory.read_store_ne _ _ _ _ (by omega)]

/-- The k-th of the bytes stored is read at the k-th address. -/
theorem Memory.read_storeBytes_in (bs : List Byte) (m : Memory) (a k : Nat) (h : k < bs.length) :
    (m.storeBytes a bs).read (a + k) = bs[k] := by
  induction bs generalizing m a k with
  | nil => simp at h
  | cons b bs ih =>
    cases k with
    | zero =>
      rw [Memory.storeBytes, Memory.read_storeBytes_out _ _ _ _ (by omega)]
      simp
    | succ k =>
      have := ih (m.store a b) (a + 1) k (by simpa using h)
      simpa [Memory.storeBytes, Nat.add_assoc, Nat.add_comm 1 k] using this

/-! ### The canonical form -/

theorem Memory.wfFrom_mono (m : Memory) (lo lo' : Nat) (h : m.wfFrom lo = true) (hl : lo' ≤ lo) : m.wfFrom lo' = true := by
  cases m with
  | nil => rfl
  | cons c rest =>
    simp only [Memory.wfFrom, Bool.and_eq_true, decide_eq_true_eq] at h ⊢
    exact ⟨⟨⟨by omega, h.1.1.2⟩, h.1.2⟩, h.2⟩

theorem Memory.wfFrom_erase (m : Memory) (lo a : Nat) (h : m.wfFrom lo = true) : (m.erase a).wfFrom lo = true := by
  induction m generalizing lo with
  | nil => rfl
  | cons c rest ih =>
    obtain ⟨a', b⟩ := c
    simp only [Memory.wfFrom, Bool.and_eq_true, decide_eq_true_eq] at h
    by_cases ha : a' = a
    · have := ih lo (Memory.wfFrom_mono rest (a' + 1) lo h.2 (by omega))
      simpa [Memory.erase, ha] using this
    · have := ih (a' + 1) h.2
      have h2 : Memory.wfFrom lo ((a', b) :: Memory.erase rest a) = true := by
        simp only [Memory.wfFrom, Bool.and_eq_true, decide_eq_true_eq]
        exact ⟨h.1, this⟩
      simpa [Memory.erase, ha] using h2

theorem Memory.wfFrom_insert (m : Memory) (lo a : Nat) (b : Byte) (h : m.wfFrom lo = true) (hlo : lo ≤ a)
    (ha : a < memSize) (hb : b ≠ unlistedByte a) (hne : ∀ c ∈ m, c.1 ≠ a) : (m.insert a b).wfFrom lo = true := by
  induction m generalizing lo with
  | nil => simp [Memory.insert, Memory.wfFrom, hlo, ha, hb]
  | cons c rest ih =>
    obtain ⟨a', b'⟩ := c
    have hne' : a' ≠ a := hne (a', b') List.mem_cons_self
    simp only [Memory.wfFrom, Bool.and_eq_true, decide_eq_true_eq] at h
    simp only [Memory.insert]
    split
    · simp only [Memory.wfFrom, Bool.and_eq_true, decide_eq_true_eq, bne_iff_ne]
      refine ⟨⟨⟨hlo, ha⟩, hb⟩, ⟨⟨by omega, h.1.1.2⟩, ?_⟩, h.2⟩
      simpa using h.1.2
    · simp only [Memory.wfFrom, Bool.and_eq_true, decide_eq_true_eq]
      exact ⟨h.1, ih (a' + 1) h.2 (by omega) (fun c hc => hne c (List.mem_cons_of_mem _ hc))⟩

/-- A store inside the address space keeps the canonical form. -/
theorem Memory.wf_store (m : Memory) (a : Nat) (b : Byte) (h : m.wf = true) (ha : a < memSize) : (m.store a b).wf = true := by
  unfold Memory.store
  split
  · exact Memory.wfFrom_erase m 0 a h
  · rename_i hb
    exact Memory.wfFrom_insert _ 0 a b (Memory.wfFrom_erase m 0 a h) (Nat.zero_le a) ha hb (Memory.mem_erase_ne m a)

/-- Bytes stored inside the address space keep the canonical form. -/
theorem Memory.wf_storeBytes (bs : List Byte) (m : Memory) (a : Nat) (h : m.wf = true) (ha : a + bs.length ≤ memSize) :
    (m.storeBytes a bs).wf = true := by
  induction bs generalizing m a with
  | nil => exact h
  | cons b bs ih =>
    simp only [List.length_cons] at ha
    exact ih _ _ (Memory.wf_store m a b h (by omega)) (by omega)

/-- An address below every entry reads as unlisted. -/
theorem Memory.read_below (m : Memory) (lo a : Nat) (h : m.wfFrom lo = true) (ha : a < lo) : m.read a = unlistedByte a := by
  induction m generalizing lo with
  | nil => rfl
  | cons c rest ih =>
    obtain ⟨a', b⟩ := c
    simp only [Memory.wfFrom, Bool.and_eq_true, decide_eq_true_eq] at h
    rw [Memory.read, if_neg (by omega)]
    exact ih (a' + 1) h.2 (by omega)

/-- Reset's memory has the canonical form. -/
theorem Memory.wf_reset : State.reset.mem.wf = true := rfl

end Sys2Proof.Machine
end

