-- ==== Sys2Proof/Laws/State.lean ====
section
/-! SUPPORT. The fields of a state after each named update: one lemma per field and update, true by unfolding the update
once, so that no later proof unfolds one. -/

namespace Sys2Proof.Machine

variable (s : State)

/-! ### setV -/

@[simp] theorem State.setV_v (x : Reg) (b : Byte) : (s.setV x b).v = s.v.set x.toNat b := rfl
@[simp] theorem State.setV_i (x : Reg) (b : Byte) : (s.setV x b).i = s.i := rfl
@[simp] theorem State.setV_pc (x : Reg) (b : Byte) : (s.setV x b).pc = s.pc := rfl
@[simp] theorem State.setV_stack (x : Reg) (b : Byte) : (s.setV x b).stack = s.stack := rfl
@[simp] theorem State.setV_depth (x : Reg) (b : Byte) : (s.setV x b).depth = s.depth := rfl
@[simp] theorem State.setV_mem (x : Reg) (b : Byte) : (s.setV x b).mem = s.mem := rfl
@[simp] theorem State.setV_display (x : Reg) (b : Byte) : (s.setV x b).display = s.display := rfl
@[simp] theorem State.setV_dt (x : Reg) (b : Byte) : (s.setV x b).dt = s.dt := rfl
@[simp] theorem State.setV_st (x : Reg) (b : Byte) : (s.setV x b).st = s.st := rfl
@[simp] theorem State.setV_keys (x : Reg) (b : Byte) : (s.setV x b).keys = s.keys := rfl
@[simp] theorem State.setV_drawPending (x : Reg) (b : Byte) : (s.setV x b).drawPending = s.drawPending := rfl
@[simp] theorem State.setV_estate (x : Reg) (b : Byte) : (s.setV x b).estate = s.estate := rfl
@[simp] theorem State.setV_faultKind (x : Reg) (b : Byte) : (s.setV x b).faultKind = s.faultKind := rfl
@[simp] theorem State.setV_faultPc (x : Reg) (b : Byte) : (s.setV x b).faultPc = s.faultPc := rfl
@[simp] theorem State.setV_draws (x : Reg) (b : Byte) : (s.setV x b).draws = s.draws := rfl

/-! ### setI -/

@[simp] theorem State.setI_v (a : Word) : (s.setI a).v = s.v := rfl
@[simp] theorem State.setI_i (a : Word) : (s.setI a).i = a := rfl
@[simp] theorem State.setI_pc (a : Word) : (s.setI a).pc = s.pc := rfl
@[simp] theorem State.setI_stack (a : Word) : (s.setI a).stack = s.stack := rfl
@[simp] theorem State.setI_depth (a : Word) : (s.setI a).depth = s.depth := rfl
@[simp] theorem State.setI_mem (a : Word) : (s.setI a).mem = s.mem := rfl
@[simp] theorem State.setI_display (a : Word) : (s.setI a).display = s.display := rfl
@[simp] theorem State.setI_dt (a : Word) : (s.setI a).dt = s.dt := rfl
@[simp] theorem State.setI_st (a : Word) : (s.setI a).st = s.st := rfl
@[simp] theorem State.setI_keys (a : Word) : (s.setI a).keys = s.keys := rfl
@[simp] theorem State.setI_drawPending (a : Word) : (s.setI a).drawPending = s.drawPending := rfl
@[simp] theorem State.setI_estate (a : Word) : (s.setI a).estate = s.estate := rfl
@[simp] theorem State.setI_faultKind (a : Word) : (s.setI a).faultKind = s.faultKind := rfl
@[simp] theorem State.setI_faultPc (a : Word) : (s.setI a).faultPc = s.faultPc := rfl
@[simp] theorem State.setI_draws (a : Word) : (s.setI a).draws = s.draws := rfl
@[simp] theorem State.setI_getV (a : Word) (z : Reg) : (s.setI a).getV z = s.getV z := rfl

/-! ### setPc -/

@[simp] theorem State.setPc_v (a : Word) : (s.setPc a).v = s.v := rfl
@[simp] theorem State.setPc_i (a : Word) : (s.setPc a).i = s.i := rfl
@[simp] theorem State.setPc_pc (a : Word) : (s.setPc a).pc = a := rfl
@[simp] theorem State.setPc_stack (a : Word) : (s.setPc a).stack = s.stack := rfl
@[simp] theorem State.setPc_depth (a : Word) : (s.setPc a).depth = s.depth := rfl
@[simp] theorem State.setPc_mem (a : Word) : (s.setPc a).mem = s.mem := rfl
@[simp] theorem State.setPc_display (a : Word) : (s.setPc a).display = s.display := rfl
@[simp] theorem State.setPc_dt (a : Word) : (s.setPc a).dt = s.dt := rfl
@[simp] theorem State.setPc_st (a : Word) : (s.setPc a).st = s.st := rfl
@[simp] theorem State.setPc_keys (a : Word) : (s.setPc a).keys = s.keys := rfl
@[simp] theorem State.setPc_drawPending (a : Word) : (s.setPc a).drawPending = s.drawPending := rfl
@[simp] theorem State.setPc_estate (a : Word) : (s.setPc a).estate = s.estate := rfl
@[simp] theorem State.setPc_faultKind (a : Word) : (s.setPc a).faultKind = s.faultKind := rfl
@[simp] theorem State.setPc_faultPc (a : Word) : (s.setPc a).faultPc = s.faultPc := rfl
@[simp] theorem State.setPc_draws (a : Word) : (s.setPc a).draws = s.draws := rfl
@[simp] theorem State.setPc_getV (a : Word) (z : Reg) : (s.setPc a).getV z = s.getV z := rfl

/-! ### setDt -/

@[simp] theorem State.setDt_v (b : Byte) : (s.setDt b).v = s.v := rfl
@[simp] theorem State.setDt_i (b : Byte) : (s.setDt b).i = s.i := rfl
@[simp] theorem State.setDt_pc (b : Byte) : (s.setDt b).pc = s.pc := rfl
@[simp] theorem State.setDt_stack (b : Byte) : (s.setDt b).stack = s.stack := rfl
@[simp] theorem State.setDt_depth (b : Byte) : (s.setDt b).depth = s.depth := rfl
@[simp] theorem State.setDt_mem (b : Byte) : (s.setDt b).mem = s.mem := rfl
@[simp] theorem State.setDt_display (b : Byte) : (s.setDt b).display = s.display := rfl
@[simp] theorem State.setDt_dt (b : Byte) : (s.setDt b).dt = b := rfl
@[simp] theorem State.setDt_st (b : Byte) : (s.setDt b).st = s.st := rfl
@[simp] theorem State.setDt_keys (b : Byte) : (s.setDt b).keys = s.keys := rfl
@[simp] theorem State.setDt_drawPending (b : Byte) : (s.setDt b).drawPending = s.drawPending := rfl
@[simp] theorem State.setDt_estate (b : Byte) : (s.setDt b).estate = s.estate := rfl
@[simp] theorem State.setDt_faultKind (b : Byte) : (s.setDt b).faultKind = s.faultKind := rfl
@[simp] theorem State.setDt_faultPc (b : Byte) : (s.setDt b).faultPc = s.faultPc := rfl
@[simp] theorem State.setDt_draws (b : Byte) : (s.setDt b).draws = s.draws := rfl
@[simp] theorem State.setDt_getV (b : Byte) (z : Reg) : (s.setDt b).getV z = s.getV z := rfl

/-! ### setSt -/

@[simp] theorem State.setSt_v (b : Byte) : (s.setSt b).v = s.v := rfl
@[simp] theorem State.setSt_i (b : Byte) : (s.setSt b).i = s.i := rfl
@[simp] theorem State.setSt_pc (b : Byte) : (s.setSt b).pc = s.pc := rfl
@[simp] theorem State.setSt_stack (b : Byte) : (s.setSt b).stack = s.stack := rfl
@[simp] theorem State.setSt_depth (b : Byte) : (s.setSt b).depth = s.depth := rfl
@[simp] theorem State.setSt_mem (b : Byte) : (s.setSt b).mem = s.mem := rfl
@[simp] theorem State.setSt_display (b : Byte) : (s.setSt b).display = s.display := rfl
@[simp] theorem State.setSt_dt (b : Byte) : (s.setSt b).dt = s.dt := rfl
@[simp] theorem State.setSt_st (b : Byte) : (s.setSt b).st = b := rfl
@[simp] theorem State.setSt_keys (b : Byte) : (s.setSt b).keys = s.keys := rfl
@[simp] theorem State.setSt_drawPending (b : Byte) : (s.setSt b).drawPending = s.drawPending := rfl
@[simp] theorem State.setSt_estate (b : Byte) : (s.setSt b).estate = s.estate := rfl
@[simp] theorem State.setSt_faultKind (b : Byte) : (s.setSt b).faultKind = s.faultKind := rfl
@[simp] theorem State.setSt_faultPc (b : Byte) : (s.setSt b).faultPc = s.faultPc := rfl
@[simp] theorem State.setSt_draws (b : Byte) : (s.setSt b).draws = s.draws := rfl
@[simp] theorem State.setSt_getV (b : Byte) (z : Reg) : (s.setSt b).getV z = s.getV z := rfl

/-! ### setMem -/

@[simp] theorem State.setMem_v (m : Memory) : (s.setMem m).v = s.v := rfl
@[simp] theorem State.setMem_i (m : Memory) : (s.setMem m).i = s.i := rfl
@[simp] theorem State.setMem_pc (m : Memory) : (s.setMem m).pc = s.pc := rfl
@[simp] theorem State.setMem_stack (m : Memory) : (s.setMem m).stack = s.stack := rfl
@[simp] theorem State.setMem_depth (m : Memory) : (s.setMem m).depth = s.depth := rfl
@[simp] theorem State.setMem_mem (m : Memory) : (s.setMem m).mem = m := rfl
@[simp] theorem State.setMem_display (m : Memory) : (s.setMem m).display = s.display := rfl
@[simp] theorem State.setMem_dt (m : Memory) : (s.setMem m).dt = s.dt := rfl
@[simp] theorem State.setMem_st (m : Memory) : (s.setMem m).st = s.st := rfl
@[simp] theorem State.setMem_keys (m : Memory) : (s.setMem m).keys = s.keys := rfl
@[simp] theorem State.setMem_drawPending (m : Memory) : (s.setMem m).drawPending = s.drawPending := rfl
@[simp] theorem State.setMem_estate (m : Memory) : (s.setMem m).estate = s.estate := rfl
@[simp] theorem State.setMem_faultKind (m : Memory) : (s.setMem m).faultKind = s.faultKind := rfl
@[simp] theorem State.setMem_faultPc (m : Memory) : (s.setMem m).faultPc = s.faultPc := rfl
@[simp] theorem State.setMem_draws (m : Memory) : (s.setMem m).draws = s.draws := rfl
@[simp] theorem State.setMem_getV (m : Memory) (z : Reg) : (s.setMem m).getV z = s.getV z := rfl

/-! ### redraw -/

@[simp] theorem State.redraw_v (d : Vector (BitVec 64) 32) : (s.redraw d).v = s.v := rfl
@[simp] theorem State.redraw_i (d : Vector (BitVec 64) 32) : (s.redraw d).i = s.i := rfl
@[simp] theorem State.redraw_pc (d : Vector (BitVec 64) 32) : (s.redraw d).pc = s.pc := rfl
@[simp] theorem State.redraw_stack (d : Vector (BitVec 64) 32) : (s.redraw d).stack = s.stack := rfl
@[simp] theorem State.redraw_depth (d : Vector (BitVec 64) 32) : (s.redraw d).depth = s.depth := rfl
@[simp] theorem State.redraw_mem (d : Vector (BitVec 64) 32) : (s.redraw d).mem = s.mem := rfl
@[simp] theorem State.redraw_display (d : Vector (BitVec 64) 32) : (s.redraw d).display = d := rfl
@[simp] theorem State.redraw_dt (d : Vector (BitVec 64) 32) : (s.redraw d).dt = s.dt := rfl
@[simp] theorem State.redraw_st (d : Vector (BitVec 64) 32) : (s.redraw d).st = s.st := rfl
@[simp] theorem State.redraw_keys (d : Vector (BitVec 64) 32) : (s.redraw d).keys = s.keys := rfl
@[simp] theorem State.redraw_drawPending (d : Vector (BitVec 64) 32) : (s.redraw d).drawPending = true := rfl
@[simp] theorem State.redraw_estate (d : Vector (BitVec 64) 32) : (s.redraw d).estate = s.estate := rfl
@[simp] theorem State.redraw_faultKind (d : Vector (BitVec 64) 32) : (s.redraw d).faultKind = s.faultKind := rfl
@[simp] theorem State.redraw_faultPc (d : Vector (BitVec 64) 32) : (s.redraw d).faultPc = s.faultPc := rfl
@[simp] theorem State.redraw_draws (d : Vector (BitVec 64) 32) : (s.redraw d).draws = s.draws := rfl
@[simp] theorem State.redraw_getV (d : Vector (BitVec 64) 32) (z : Reg) : (s.redraw d).getV z = s.getV z := rfl

/-! ### setEstate -/

@[simp] theorem State.setEstate_v (e : EngineState) : (s.setEstate e).v = s.v := rfl
@[simp] theorem State.setEstate_i (e : EngineState) : (s.setEstate e).i = s.i := rfl
@[simp] theorem State.setEstate_pc (e : EngineState) : (s.setEstate e).pc = s.pc := rfl
@[simp] theorem State.setEstate_stack (e : EngineState) : (s.setEstate e).stack = s.stack := rfl
@[simp] theorem State.setEstate_depth (e : EngineState) : (s.setEstate e).depth = s.depth := rfl
@[simp] theorem State.setEstate_mem (e : EngineState) : (s.setEstate e).mem = s.mem := rfl
@[simp] theorem State.setEstate_display (e : EngineState) : (s.setEstate e).display = s.display := rfl
@[simp] theorem State.setEstate_dt (e : EngineState) : (s.setEstate e).dt = s.dt := rfl
@[simp] theorem State.setEstate_st (e : EngineState) : (s.setEstate e).st = s.st := rfl
@[simp] theorem State.setEstate_keys (e : EngineState) : (s.setEstate e).keys = s.keys := rfl
@[simp] theorem State.setEstate_drawPending (e : EngineState) : (s.setEstate e).drawPending = s.drawPending := rfl
@[simp] theorem State.setEstate_estate (e : EngineState) : (s.setEstate e).estate = e := rfl
@[simp] theorem State.setEstate_faultKind (e : EngineState) : (s.setEstate e).faultKind = s.faultKind := rfl
@[simp] theorem State.setEstate_faultPc (e : EngineState) : (s.setEstate e).faultPc = s.faultPc := rfl
@[simp] theorem State.setEstate_draws (e : EngineState) : (s.setEstate e).draws = s.draws := rfl
@[simp] theorem State.setEstate_getV (e : EngineState) (z : Reg) : (s.setEstate e).getV z = s.getV z := rfl

/-! ### advance -/

@[simp] theorem State.advance_v : (s.advance).v = s.v := rfl
@[simp] theorem State.advance_i : (s.advance).i = s.i := rfl
@[simp] theorem State.advance_pc : (s.advance).pc = s.pc + 2#16 := rfl
@[simp] theorem State.advance_stack : (s.advance).stack = s.stack := rfl
@[simp] theorem State.advance_depth : (s.advance).depth = s.depth := rfl
@[simp] theorem State.advance_mem : (s.advance).mem = s.mem := rfl
@[simp] theorem State.advance_display : (s.advance).display = s.display := rfl
@[simp] theorem State.advance_dt : (s.advance).dt = s.dt := rfl
@[simp] theorem State.advance_st : (s.advance).st = s.st := rfl
@[simp] theorem State.advance_keys : (s.advance).keys = s.keys := rfl
@[simp] theorem State.advance_drawPending : (s.advance).drawPending = s.drawPending := rfl
@[simp] theorem State.advance_estate : (s.advance).estate = s.estate := rfl
@[simp] theorem State.advance_faultKind : (s.advance).faultKind = s.faultKind := rfl
@[simp] theorem State.advance_faultPc : (s.advance).faultPc = s.faultPc := rfl
@[simp] theorem State.advance_draws : (s.advance).draws = s.draws := rfl
@[simp] theorem State.advance_getV (z : Reg) : (s.advance).getV z = s.getV z := rfl

/-! ### takeFault -/

@[simp] theorem State.takeFault_v (k : FaultKind) : (s.takeFault k).v = s.v := rfl
@[simp] theorem State.takeFault_i (k : FaultKind) : (s.takeFault k).i = s.i := rfl
@[simp] theorem State.takeFault_pc (k : FaultKind) : (s.takeFault k).pc = s.pc := rfl
@[simp] theorem State.takeFault_stack (k : FaultKind) : (s.takeFault k).stack = s.stack := rfl
@[simp] theorem State.takeFault_depth (k : FaultKind) : (s.takeFault k).depth = s.depth := rfl
@[simp] theorem State.takeFault_mem (k : FaultKind) : (s.takeFault k).mem = s.mem := rfl
@[simp] theorem State.takeFault_display (k : FaultKind) : (s.takeFault k).display = s.display := rfl
@[simp] theorem State.takeFault_dt (k : FaultKind) : (s.takeFault k).dt = s.dt := rfl
@[simp] theorem State.takeFault_st (k : FaultKind) : (s.takeFault k).st = s.st := rfl
@[simp] theorem State.takeFault_keys (k : FaultKind) : (s.takeFault k).keys = s.keys := rfl
@[simp] theorem State.takeFault_drawPending (k : FaultKind) : (s.takeFault k).drawPending = s.drawPending := rfl
@[simp] theorem State.takeFault_estate (k : FaultKind) : (s.takeFault k).estate = .faulted := rfl
@[simp] theorem State.takeFault_faultKind (k : FaultKind) : (s.takeFault k).faultKind = some k := rfl
@[simp] theorem State.takeFault_faultPc (k : FaultKind) : (s.takeFault k).faultPc = s.pc := rfl
@[simp] theorem State.takeFault_draws (k : FaultKind) : (s.takeFault k).draws = s.draws := rfl
@[simp] theorem State.takeFault_getV (k : FaultKind) (z : Reg) : (s.takeFault k).getV z = s.getV z := rfl

/-! ### setFlag -/

@[simp] theorem State.setFlag_v (f : Bool) : (s.setFlag f).v = s.v.set Reg.vf.toNat (flagByte f) := rfl
@[simp] theorem State.setFlag_i (f : Bool) : (s.setFlag f).i = s.i := rfl
@[simp] theorem State.setFlag_pc (f : Bool) : (s.setFlag f).pc = s.pc := rfl
@[simp] theorem State.setFlag_stack (f : Bool) : (s.setFlag f).stack = s.stack := rfl
@[simp] theorem State.setFlag_depth (f : Bool) : (s.setFlag f).depth = s.depth := rfl
@[simp] theorem State.setFlag_mem (f : Bool) : (s.setFlag f).mem = s.mem := rfl
@[simp] theorem State.setFlag_display (f : Bool) : (s.setFlag f).display = s.display := rfl
@[simp] theorem State.setFlag_dt (f : Bool) : (s.setFlag f).dt = s.dt := rfl
@[simp] theorem State.setFlag_st (f : Bool) : (s.setFlag f).st = s.st := rfl
@[simp] theorem State.setFlag_keys (f : Bool) : (s.setFlag f).keys = s.keys := rfl
@[simp] theorem State.setFlag_drawPending (f : Bool) : (s.setFlag f).drawPending = s.drawPending := rfl
@[simp] theorem State.setFlag_estate (f : Bool) : (s.setFlag f).estate = s.estate := rfl
@[simp] theorem State.setFlag_faultKind (f : Bool) : (s.setFlag f).faultKind = s.faultKind := rfl
@[simp] theorem State.setFlag_faultPc (f : Bool) : (s.setFlag f).faultPc = s.faultPc := rfl
@[simp] theorem State.setFlag_draws (f : Bool) : (s.setFlag f).draws = s.draws := rfl

/-! ### skipIf, setVFlag, drawRandom -/

@[simp] theorem State.skipIf_v (c : Bool) : (s.skipIf c).v = s.v := by cases c <;> rfl
@[simp] theorem State.skipIf_i (c : Bool) : (s.skipIf c).i = s.i := by cases c <;> rfl
@[simp] theorem State.skipIf_pc (c : Bool) : (s.skipIf c).pc = if c then s.pc + 4#16 else s.pc + 2#16 := by cases c <;> rfl
@[simp] theorem State.skipIf_stack (c : Bool) : (s.skipIf c).stack = s.stack := by cases c <;> rfl
@[simp] theorem State.skipIf_depth (c : Bool) : (s.skipIf c).depth = s.depth := by cases c <;> rfl
@[simp] theorem State.skipIf_mem (c : Bool) : (s.skipIf c).mem = s.mem := by cases c <;> rfl
@[simp] theorem State.skipIf_display (c : Bool) : (s.skipIf c).display = s.display := by cases c <;> rfl
@[simp] theorem State.skipIf_dt (c : Bool) : (s.skipIf c).dt = s.dt := by cases c <;> rfl
@[simp] theorem State.skipIf_st (c : Bool) : (s.skipIf c).st = s.st := by cases c <;> rfl
@[simp] theorem State.skipIf_keys (c : Bool) : (s.skipIf c).keys = s.keys := by cases c <;> rfl
@[simp] theorem State.skipIf_drawPending (c : Bool) : (s.skipIf c).drawPending = s.drawPending := by cases c <;> rfl
@[simp] theorem State.skipIf_estate (c : Bool) : (s.skipIf c).estate = s.estate := by cases c <;> rfl
@[simp] theorem State.skipIf_faultKind (c : Bool) : (s.skipIf c).faultKind = s.faultKind := by cases c <;> rfl
@[simp] theorem State.skipIf_faultPc (c : Bool) : (s.skipIf c).faultPc = s.faultPc := by cases c <;> rfl
@[simp] theorem State.skipIf_draws (c : Bool) : (s.skipIf c).draws = s.draws := by cases c <;> rfl
@[simp] theorem State.skipIf_getV (c : Bool) (z : Reg) : (s.skipIf c).getV z = s.getV z := by cases c <;> rfl
@[simp] theorem State.setVFlag_i (x : Reg) (r : Byte) (c : Bool) : (s.setVFlag x r c).i = s.i := rfl
@[simp] theorem State.setVFlag_pc (x : Reg) (r : Byte) (c : Bool) : (s.setVFlag x r c).pc = s.pc := rfl
@[simp] theorem State.setVFlag_stack (x : Reg) (r : Byte) (c : Bool) : (s.setVFlag x r c).stack = s.stack := rfl
@[simp] theorem State.setVFlag_depth (x : Reg) (r : Byte) (c : Bool) : (s.setVFlag x r c).depth = s.depth := rfl
@[simp] theorem State.setVFlag_mem (x : Reg) (r : Byte) (c : Bool) : (s.setVFlag x r c).mem = s.mem := rfl
@[simp] theorem State.setVFlag_display (x : Reg) (r : Byte) (c : Bool) : (s.setVFlag x r c).display = s.display := rfl
@[simp] theorem State.setVFlag_dt (x : Reg) (r : Byte) (c : Bool) : (s.setVFlag x r c).dt = s.dt := rfl
@[simp] theorem State.setVFlag_st (x : Reg) (r : Byte) (c : Bool) : (s.setVFlag x r c).st = s.st := rfl
@[simp] theorem State.setVFlag_keys (x : Reg) (r : Byte) (c : Bool) : (s.setVFlag x r c).keys = s.keys := rfl
@[simp] theorem State.setVFlag_drawPending (x : Reg) (r : Byte) (c : Bool) : (s.setVFlag x r c).drawPending = s.drawPending := rfl
@[simp] theorem State.setVFlag_estate (x : Reg) (r : Byte) (c : Bool) : (s.setVFlag x r c).estate = s.estate := rfl
@[simp] theorem State.setVFlag_faultKind (x : Reg) (r : Byte) (c : Bool) : (s.setVFlag x r c).faultKind = s.faultKind := rfl
@[simp] theorem State.setVFlag_faultPc (x : Reg) (r : Byte) (c : Bool) : (s.setVFlag x r c).faultPc = s.faultPc := rfl
@[simp] theorem State.setVFlag_draws (x : Reg) (r : Byte) (c : Bool) : (s.setVFlag x r c).draws = s.draws := rfl
@[simp] theorem State.drawRandom_v : s.drawRandom.2.v = s.v := rfl
@[simp] theorem State.drawRandom_i : s.drawRandom.2.i = s.i := rfl
@[simp] theorem State.drawRandom_pc : s.drawRandom.2.pc = s.pc := rfl
@[simp] theorem State.drawRandom_stack : s.drawRandom.2.stack = s.stack := rfl
@[simp] theorem State.drawRandom_depth : s.drawRandom.2.depth = s.depth := rfl
@[simp] theorem State.drawRandom_mem : s.drawRandom.2.mem = s.mem := rfl
@[simp] theorem State.drawRandom_display : s.drawRandom.2.display = s.display := rfl
@[simp] theorem State.drawRandom_dt : s.drawRandom.2.dt = s.dt := rfl
@[simp] theorem State.drawRandom_st : s.drawRandom.2.st = s.st := rfl
@[simp] theorem State.drawRandom_keys : s.drawRandom.2.keys = s.keys := rfl
@[simp] theorem State.drawRandom_drawPending : s.drawRandom.2.drawPending = s.drawPending := rfl
@[simp] theorem State.drawRandom_estate : s.drawRandom.2.estate = s.estate := rfl
@[simp] theorem State.drawRandom_faultKind : s.drawRandom.2.faultKind = s.faultKind := rfl
@[simp] theorem State.drawRandom_faultPc : s.drawRandom.2.faultPc = s.faultPc := rfl
@[simp] theorem State.drawRandom_draws : s.drawRandom.2.draws = s.draws + 1 := rfl
@[simp] theorem State.drawRandom_fst : s.drawRandom.1 = Config.randomByte s.draws := rfl
@[simp] theorem State.drawRandom_getV (z : Reg) : s.drawRandom.2.getV z = s.getV z := rfl

/-! ### Reading a register after a write -/

@[simp] theorem State.getV_setV_same (x : Reg) (b : Byte) : (s.setV x b).getV x = b := by
  simp [State.getV, State.setV]

theorem State.getV_setV (x z : Reg) (b : Byte) : (s.setV x b).getV z = if x = z then b else s.getV z := by
  simp [State.getV, State.setV, Vector.getElem_set, BitVec.toNat_inj]

@[simp] theorem State.getV_setV_ne (x z : Reg) (b : Byte) (h : z ≠ x) : (s.setV x b).getV z = s.getV z := by
  rw [State.getV_setV, if_neg (Ne.symm h)]

@[simp] theorem State.getV_setFlag_vf (c : Bool) : (s.setFlag c).getV Reg.vf = flagByte c :=
  State.getV_setV_same s Reg.vf (flagByte c)

@[simp] theorem State.getV_setFlag_ne (c : Bool) (z : Reg) (h : z ≠ Reg.vf) : (s.setFlag c).getV z = s.getV z :=
  State.getV_setV_ne s Reg.vf z (flagByte c) h

/-- The flag wins when the destination is `VF` (R150). -/
@[simp] theorem State.getV_setVFlag_vf (x : Reg) (r : Byte) (c : Bool) : (s.setVFlag x r c).getV Reg.vf = flagByte c :=
  State.getV_setFlag_vf _ c

@[simp] theorem State.getV_setVFlag_dst (x : Reg) (r : Byte) (c : Bool) (h : x ≠ Reg.vf) :
    (s.setVFlag x r c).getV x = r := by
  rw [State.setVFlag, State.getV_setFlag_ne _ _ _ h, State.getV_setV_same]

@[simp] theorem State.getV_setVFlag_ne (x z : Reg) (r : Byte) (c : Bool) (hx : z ≠ x) (hf : z ≠ Reg.vf) :
    (s.setVFlag x r c).getV z = s.getV z := by
  rw [State.setVFlag, State.getV_setFlag_ne _ _ _ hf, State.getV_setV_ne _ _ _ _ hx]

/-! ### The end of an instruction that may fault -/

@[simp] theorem State.commit_ok (t : State) : s.commit (.ok t) = .next t := rfl
@[simp] theorem State.commit_error (k : FaultKind) : s.commit (.error k) = .next (s.takeFault k) := rfl

end Sys2Proof.Machine
end

