-- ==== Sys2Proof/Laws/Ops.lean ====
section
/-! SUPPORT. One lemma per shared operation of Machine/Ops.lean and Machine/Operands.lean that says what it does, so that
a proof cites it and does not unfold it. -/

namespace Sys2Proof.Machine

/-! ### Fetch -/

theorem fetch16_ok (m : Memory) (pc : Word) (h : pc.toNat + 1 ≤ 0xFFF) :
    fetch16 m pc = .ok (codeOfBytes (m.read pc.toNat) (m.read (pc.toNat + 1))) := by
  rw [fetch16, if_neg (by omega)]

theorem fetch16_error (m : Memory) (pc : Word) (h : pc.toNat + 1 > 0xFFF) :
    fetch16 m pc = .error .fetchOutOfBounds := by
  rw [fetch16, if_pos h]

/-- A fetch that succeeds was in bounds and read the two bytes at `pc`. -/
theorem fetch16_eq_ok {m : Memory} {pc : Word} {c : Code} (h : fetch16 m pc = .ok c) :
    pc.toNat + 1 ≤ 0xFFF ∧ c = codeOfBytes (m.read pc.toNat) (m.read (pc.toNat + 1)) := by
  unfold fetch16 at h
  split at h
  · cases h
  · cases h; exact ⟨by omega, rfl⟩

/-- The only fault a fetch raises. -/
theorem fetch16_eq_error {m : Memory} {pc : Word} {k : FaultKind} (h : fetch16 m pc = .error k) :
    pc.toNat + 1 > 0xFFF ∧ k = .fetchOutOfBounds := by
  unfold fetch16 at h
  split at h
  · rename_i hp; cases h; exact ⟨hp, rfl⟩
  · cases h

theorem codeOfBytes_toNat (hi lo : Byte) : (codeOfBytes hi lo).toNat = hi.toNat * 256 + lo.toNat := by
  have h := lo.isLt
  simp only [codeOfBytes, BitVec.toNat_append]
  rw [Nat.shiftLeft_eq, Nat.mul_comm, ← Nat.two_pow_add_eq_or_of_lt h]

/-! ### The stack -/

theorem State.push_of_lt (s : State) (a : Word) (h : s.depth.val < 16) :
    s.push a = some { s with stack := s.stack.set s.depth.val a, depth := ⟨s.depth.val + 1, by omega⟩ } := by
  rw [State.push, dif_pos h]

theorem State.push_of_full (s : State) (a : Word) (h : s.depth.val = 16) : s.push a = none := by
  rw [State.push, dif_neg (by omega)]

theorem State.pop_of_pos (s : State) (h : 0 < s.depth.val) :
    s.pop = some (s.stack[s.depth.val - 1], { s with depth := ⟨s.depth.val - 1, by omega⟩ }) := by
  rw [State.pop, dif_pos h]

theorem State.pop_of_zero (s : State) (h : s.depth.val = 0) : s.pop = none := by
  rw [State.pop, dif_neg (by omega)]

/-! ### The step -/

theorem State.live_cases {s : State} (h : s.live = true) : s.estate = .ready ∨ s.estate = .running := by
  simpa [State.live] using h

/-- A step of a live engine is decided by its fetch and its decoder. -/
theorem stepOver_live (dec : Code → Except Reject Instr) (ex : Instr → State → Result) (s : State) (h : s.live = true) :
    stepOver dec ex s =
      match fetch16 s.mem s.pc with
      | .error k => .next (s.takeFault k)
      | .ok code =>
        match dec code with
        | .error _ => stepUnknown (s.setEstate .running)
        | .ok inst => ex inst (s.setEstate .running) := by
  unfold stepOver
  obtain h | h := State.live_cases h <;> simp only [h] <;> rfl

/-- Everything a step that answers a next state can have done. -/
theorem stepOver_next {dec : Code → Except Reject Instr} {ex : Instr → State → Result} {s t : State}
    (h : stepOver dec ex s = .next t) :
    s.live = true ∧
    ((s.pc.toNat + 1 > 0xFFF ∧ t = s.takeFault .fetchOutOfBounds) ∨
     (∃ code e, fetch16 s.mem s.pc = .ok code ∧ dec code = .error e ∧ t = (s.setEstate .running).advance) ∨
     (∃ code i, fetch16 s.mem s.pc = .ok code ∧ dec code = .ok i ∧ ex i (s.setEstate .running) = .next t)) := by
  have hl : s.live = true := by
    unfold stepOver at h
    cases he : s.estate <;> simp_all [State.live]
  refine ⟨hl, ?_⟩
  rw [stepOver_live dec ex s hl] at h
  cases hf : fetch16 s.mem s.pc with
  | error k =>
    rw [hf] at h
    obtain ⟨hp, rfl⟩ := fetch16_eq_error hf
    cases h
    exact .inl ⟨hp, rfl⟩
  | ok code =>
    rw [hf] at h
    cases hd : dec code with
    | error e =>
      simp only [hd, stepUnknown] at h
      cases h
      exact .inr (.inl ⟨code, e, rfl, hd, rfl⟩)
    | ok i =>
      simp only [hd] at h
      exact .inr (.inr ⟨code, i, rfl, hd, h⟩)

/-! ### Data accesses -/

theorem resolveAddr_in (p : Params) (a : Nat) (h : a ≤ 0xFFF) : resolveAddr p a = .ok a := by
  rw [resolveAddr, if_pos h]

theorem resolveAddr_out (p : Params) (a : Nat) (h : 0xFFF < a) (hp : p.dataOob = .fault) :
    resolveAddr p a = .error .memoryOutOfBounds := by
  rw [resolveAddr, if_neg (by omega), hp]

theorem resolveAddr_wrap (p : Params) (a : Nat) (h : 0xFFF < a) (hp : p.dataOob = .wrap) :
    resolveAddr p a = .ok (a % 4096) := by
  rw [resolveAddr, if_neg (by omega), hp]

/-- An address that resolves is inside the address space; one that does not raises `MemoryOutOfBounds`. -/
theorem resolveAddr_cases (p : Params) (a : Nat) :
    (∃ z, z ≤ 0xFFF ∧ resolveAddr p a = .ok z) ∨ resolveAddr p a = .error .memoryOutOfBounds := by
  by_cases h : a ≤ 0xFFF
  · exact .inl ⟨a, h, resolveAddr_in p a h⟩
  · cases hp : p.dataOob
    · exact .inr (resolveAddr_out p a (by omega) hp)
    · exact .inl ⟨a % 4096, by omega, resolveAddr_wrap p a (by omega) hp⟩

theorem memRead_in (p : Params) (m : Memory) (a : Nat) (h : a ≤ 0xFFF) : memRead p m a = .ok (m.read a) := by
  rw [memRead, resolveAddr_in p a h]

theorem memWrite_in (p : Params) (m : Memory) (a : Nat) (b : Byte) (h : 0x04F < a) (h' : a ≤ 0xFFF) :
    memWrite p m a b = .ok (m.store a b) := by
  rw [memWrite, resolveAddr_in p a h']
  simp [Nat.not_le.mpr h]

theorem memWrite_glyph (p : Params) (m : Memory) (a : Nat) (b : Byte) (h : a ≤ 0x04F) (hp : p.glyphWrite = .ignore) :
    memWrite p m a b = .ok m := by
  rw [memWrite, resolveAddr_in p a (by omega)]
  simp [h, hp]

/-- Everything a data write can do: nothing, a fault, or one byte stored outside the glyph region. -/
theorem memWrite_cases (p : Params) (m : Memory) (a : Nat) (b : Byte) :
    memWrite p m a b = .ok m ∨
    (∃ z, 0x50 ≤ z ∧ z ≤ 0xFFF ∧ resolveAddr p a = .ok z ∧ memWrite p m a b = .ok (m.store z b)) ∨
    memWrite p m a b = .error .memoryOutOfBounds ∨ memWrite p m a b = .error .glyphRegionWrite := by
  obtain ⟨z, hz, hr⟩ | hr := resolveAddr_cases p a
  · by_cases hg : z ≤ 0x04F
    · cases hp : p.glyphWrite
      · left; simp [memWrite, hr, hg, hp]
      · right; right; right; simp [memWrite, hr, hg, hp]
    · right; left
      exact ⟨z, by omega, hz, hr, by simp [memWrite, hr, hg]⟩
  · right; right; left; simp [memWrite, hr]

/-- Reads inside the address space give the bytes, under any parameters. -/
theorem memReadBytes_in (p : Params) (m : Memory) (n a : Nat) (h : a + n ≤ 0x1000) :
    memReadBytes p m a n = .ok ((List.range n).map (fun k => m.read (a + k))) := by
  induction n generalizing a with
  | zero => rfl
  | succ n ih =>
    rw [memReadBytes, memRead_in p m a (by omega), ih (a + 1) (by omega)]
    simp [List.range_succ_eq_map, Nat.add_assoc, Nat.add_comm 1]

theorem memReadBytes_length {p : Params} {m : Memory} {n a : Nat} {bs : List Byte} (h : memReadBytes p m a n = .ok bs) :
    bs.length = n := by
  induction n generalizing a bs with
  | zero => cases h; rfl
  | succ n ih =>
    rw [memReadBytes] at h
    split at h
    · cases h
    · split at h
      · cases h
      · rename_i h2; cases h; simp [ih h2]

/-- A read that goes past 0xFFF faults when `DATA_OOB` says so. -/
theorem memReadBytes_out (p : Params) (m : Memory) (n a : Nat) (hn : 0 < n) (h : 0x1000 < a + n) (hp : p.dataOob = .fault) :
    memReadBytes p m a n = .error .memoryOutOfBounds := by
  induction n generalizing a with
  | zero => omega
  | succ n ih =>
    rw [memReadBytes]
    by_cases ha : a ≤ 0xFFF
    · rw [memRead_in p m a ha, ih (a + 1) (by omega) (by omega)]
    · rw [memRead, resolveAddr_out p a (by omega) hp]

/-- The only fault reads raise. -/
theorem memReadBytes_error {p : Params} {m : Memory} {n a : Nat} {k : FaultKind} (h : memReadBytes p m a n = .error k) :
    k = .memoryOutOfBounds := by
  induction n generalizing a with
  | zero => cases h
  | succ n ih =>
    rw [memReadBytes, memRead] at h
    obtain ⟨z, -, hr⟩ | hr := resolveAddr_cases p a
    · rw [hr] at h
      simp only at h
      split at h
      · rename_i h2; cases h; exact ih h2
      · cases h
    · rw [hr] at h; cases h; rfl

/-- Writes that raise no fault keep the glyph region and the canonical form, under any parameters. -/
theorem memWriteBytes_ok {p : Params} {bs : List Byte} {m m' : Memory} {a : Nat} (h : memWriteBytes p m a bs = .ok m') :
    (∀ z, z < 0x50 → m'.read z = m.read z) ∧ (m.wf = true → m'.wf = true) := by
  induction bs generalizing m a with
  | nil => cases h; exact ⟨fun _ _ => rfl, id⟩
  | cons b bs ih =>
    rw [memWriteBytes] at h
    obtain hw | ⟨z, h1, h2, -, hw⟩ | hw | hw := memWrite_cases p m a b <;> rw [hw] at h
    · exact ih h
    · obtain ⟨i1, i2⟩ := ih h
      refine ⟨fun y hy => ?_, fun hm => i2 (Memory.wf_store m z b hm (by simp only [memSize]; omega))⟩
      rw [i1 y hy, Memory.read_store_ne _ _ _ _ (by omega)]
    · cases h
    · cases h

/-- Writes with `DATA_OOB` = fault that raise no fault touch only the addresses they name, all inside the address space. -/
theorem memWriteBytes_ok_out {p : Params} (hp : p.dataOob = .fault) {bs : List Byte} {m m' : Memory} {a : Nat}
    (h : memWriteBytes p m a bs = .ok m') (z : Nat) (hz : z < a ∨ a + bs.length ≤ z ∨ 0xFFF < z) : m'.read z = m.read z := by
  induction bs generalizing m a with
  | nil => cases h; rfl
  | cons b bs ih =>
    simp only [List.length_cons] at hz
    rw [memWriteBytes] at h
    obtain hw | ⟨y, h1, h2, hr, hw⟩ | hw | hw := memWrite_cases p m a b <;> rw [hw] at h
    · exact ih h (by omega)
    · have hy : y = a := by
        by_cases ha : a ≤ 0xFFF
        · rw [resolveAddr_in p a ha] at hr; cases hr; rfl
        · rw [resolveAddr_out p a (by omega) hp] at hr; cases hr
      subst hy
      rw [ih h (by omega), Memory.read_store_ne _ _ _ _ (by omega)]
    · cases h
    · cases h

/-- Writes inside the address space, glyph bytes dropped: the k-th byte is read back at the k-th address outside the glyph
region. -/
theorem memWriteBytes_in (p : Params) (hp : p.glyphWrite = .ignore) (bs : List Byte) (m : Memory) (a : Nat)
    (h : a + bs.length ≤ 0x1000) :
    ∃ m', memWriteBytes p m a bs = .ok m' ∧
      (∀ k (hk : k < bs.length), 0x50 ≤ a + k → m'.read (a + k) = bs[k]) ∧
      (∀ z, z < a ∨ a + bs.length ≤ z → m'.read z = m.read z) := by
  induction bs generalizing m a with
  | nil => exact ⟨m, rfl, by simp, fun _ _ => rfl⟩
  | cons b bs ih =>
    simp only [List.length_cons] at h
    by_cases hg : a ≤ 0x04F
    · obtain ⟨m', e, h1, h2⟩ := ih m (a + 1) (by omega)
      refine ⟨m', by rw [memWriteBytes, memWrite_glyph p m a b hg hp]; exact e, ?_, fun z hz => h2 z (by simp at hz; omega)⟩
      intro k hk hka
      cases k with
      | zero => omega
      | succ k =>
        have := h1 k (by simpa using hk) (by omega)
        simpa [Nat.add_assoc, Nat.add_comm 1 k] using this
    · obtain ⟨m', e, h1, h2⟩ := ih (m.store a b) (a + 1) (by omega)
      refine ⟨m', by rw [memWriteBytes, memWrite_in p m a b (by omega) (by omega)]; exact e, ?_, fun z hz => ?_⟩
      · intro k hk hka
        cases k with
        | zero => rw [h2 _ (by omega)]; simp
        | succ k =>
          have := h1 k (by simpa using hk) (by omega)
          simpa [Nat.add_assoc, Nat.add_comm 1 k] using this
      · simp only [List.length_cons] at hz
        rw [h2 z (by omega), Memory.read_store_ne _ _ _ _ (by omega)]

/-- A write that goes past 0xFFF faults when `DATA_OOB` says so; a write that does so starts above the glyph region, since
no instruction writes more than 16 bytes. -/
theorem memWriteBytes_out (p : Params) (hp : p.dataOob = .fault) (bs : List Byte) (m : Memory) (a : Nat)
    (hn : 0 < bs.length) (h : 0x1000 < a + bs.length) (hg : 0x50 ≤ a) :
    memWriteBytes p m a bs = .error .memoryOutOfBounds := by
  induction bs generalizing m a with
  | nil => simp at hn
  | cons b bs ih =>
    simp only [List.length_cons] at h
    rw [memWriteBytes]
    by_cases ha : a ≤ 0xFFF
    · rw [memWrite_in p m a b (by omega) ha]
      exact ih (m.store a b) (a + 1) (by omega) (by omega) (by omega)
    · rw [memWrite, resolveAddr_out p a (by omega) hp]

/-- The faults writes raise. -/
theorem memWriteBytes_error {p : Params} {bs : List Byte} {m : Memory} {a : Nat} {k : FaultKind}
    (h : memWriteBytes p m a bs = .error k) : k = .memoryOutOfBounds ∨ k = .glyphRegionWrite := by
  induction bs generalizing m a with
  | nil => cases h
  | cons b bs ih =>
    rw [memWriteBytes] at h
    obtain hw | ⟨z, -, -, -, hw⟩ | hw | hw := memWrite_cases p m a b <;> rw [hw] at h
    · exact ih h
    · exact ih h
    · cases h; exact .inl rfl
    · cases h; exact .inr rfl

/-- An address resolves to itself modulo 4096 whenever it resolves (R62). -/
theorem resolveAddr_mod (p : Params) (a : Nat) (h : p.dataOob = .fault → a ≤ 0xFFF) : resolveAddr p a = .ok (a % 4096) := by
  by_cases ha : a ≤ 0xFFF
  · rw [resolveAddr_in p a ha, Nat.mod_eq_of_lt (by omega)]
  · cases hp : p.dataOob
    · exact absurd (h hp) ha
    · exact resolveAddr_wrap p a (by omega) hp

/-- A run of reads that raises no fault gives the bytes at its addresses modulo 4096, under any parameters. -/
theorem memReadBytes_mod (p : Params) (m : Memory) (n a : Nat) (h : p.dataOob = .fault → n = 0 ∨ a + n ≤ 0x1000) :
    memReadBytes p m a n = .ok ((List.range n).map (fun k => m.read ((a + k) % 4096))) := by
  induction n generalizing a with
  | zero => rfl
  | succ n ih =>
    have h1 : p.dataOob = .fault → a ≤ 0xFFF := fun hp => by have := h hp; omega
    have h2 : p.dataOob = .fault → n = 0 ∨ a + 1 + n ≤ 0x1000 := fun hp => by have := h hp; omega
    rw [memReadBytes, memRead, resolveAddr_mod p a h1]
    simp only [ih (a + 1) h2]
    simp [List.range_succ_eq_map, Nat.add_assoc, Nat.add_comm 1]

/-- A run of writes that raises no fault stores every byte outside the glyph region at its address modulo 4096, drops the
others, and leaves every other address alone, under any parameters. -/
theorem memWriteBytes_mod (p : Params) (bs : List Byte) (m : Memory) (a : Nat) (hl : bs.length ≤ 4096)
    (ho : p.dataOob = .fault → a + bs.length ≤ 0x1000)
    (hg : p.glyphWrite = .fault → ∀ k, k < bs.length → 0x50 ≤ (a + k) % 4096) :
    ∃ m', memWriteBytes p m a bs = .ok m' ∧
      (∀ k (hk : k < bs.length), 0x50 ≤ (a + k) % 4096 → m'.read ((a + k) % 4096) = bs[k]) ∧
      (∀ z, (z < 0x50 ∨ ∀ k, k < bs.length → (a + k) % 4096 ≠ z) → m'.read z = m.read z) := by
  induction bs generalizing m a with
  | nil => exact ⟨m, rfl, by simp, fun _ _ => rfl⟩
  | cons b bs ih =>
    simp only [List.length_cons] at hl ho hg
    have hr := resolveAddr_mod p a (fun hp => by have := ho hp; omega)
    have step : ∀ m1 : Memory, memWrite p m a b = .ok m1 →
        (0x50 ≤ a % 4096 → m1.read (a % 4096) = b) →
        (∀ z, (z < 0x50 ∨ a % 4096 ≠ z) → m1.read z = m.read z) →
        ∃ m', memWriteBytes p m a (b :: bs) = .ok m' ∧
          (∀ k (hk : k < (b :: bs).length), 0x50 ≤ (a + k) % 4096 → m'.read ((a + k) % 4096) = (b :: bs)[k]) ∧
          (∀ z, (z < 0x50 ∨ ∀ k, k < (b :: bs).length → (a + k) % 4096 ≠ z) → m'.read z = m.read z) := by
      intro m1 hw h0 hz
      obtain ⟨m', e, h1, h2⟩ := ih m1 (a + 1) (by omega) (fun hp => by have := ho hp; omega)
        (fun hp k hk => by have := hg hp (k + 1) (by omega); rwa [Nat.add_assoc, Nat.add_comm 1 k])
      refine ⟨m', by rw [memWriteBytes, hw]; exact e, ?_, ?_⟩
      · intro k hk hka
        simp only [List.length_cons] at hk
        cases k with
        | zero =>
          rw [h2 _ (.inr (fun k hk' => by omega))]
          exact h0 hka
        | succ k =>
          have := h1 k (by omega) (by rw [Nat.add_assoc, Nat.add_comm 1 k]; exact hka)
          simpa [Nat.add_assoc, Nat.add_comm 1 k] using this
      · intro z hzz
        simp only [List.length_cons] at hzz
        rw [h2 z, hz z]
        · exact hzz.imp id (fun h => h 0 (by omega))
        · exact hzz.imp id (fun h k hk => by rw [Nat.add_assoc, Nat.add_comm 1 k]; exact h (k + 1) (by omega))
    by_cases hb : a % 4096 ≤ 0x04F
    · cases hp : p.glyphWrite
      · refine step m (by simp [memWrite, hr, hb, hp]) (fun h => by omega) (fun _ _ => rfl)
      · have := hg hp 0 (by omega)
        simp only [Nat.add_zero] at this
        omega
    · refine step (m.store (a % 4096) b) (by simp [memWrite, hr, hb]) (fun _ => by simp) (fun z hz => ?_)
      rw [Memory.read_store_ne]
      omega

/-- A run of writes in bounds that meets the glyph region raises `GlyphRegionWrite` when `GLYPH_WRITE` says so. -/
theorem memWriteBytes_glyph (p : Params) (hp : p.glyphWrite = .fault) (bs : List Byte) (m : Memory) (a : Nat)
    (ho : p.dataOob = .fault → a + bs.length ≤ 0x1000) (hk : ∃ k, k < bs.length ∧ (a + k) % 4096 < 0x50) :
    memWriteBytes p m a bs = .error .glyphRegionWrite := by
  induction bs generalizing m a with
  | nil => obtain ⟨k, hk, -⟩ := hk; simp at hk
  | cons b bs ih =>
    simp only [List.length_cons] at ho hk
    have hr := resolveAddr_mod p a (fun h => by have := ho h; omega)
    rw [memWriteBytes, memWrite, hr]
    by_cases hb : a % 4096 ≤ 0x04F
    · simp [hb, hp]
    · simp only [hb, if_false]
      refine ih _ (a + 1) (fun h => by have := ho h; omega) ?_
      obtain ⟨k, h1, h2⟩ := hk
      cases k with
      | zero => simp only [Nat.add_zero] at h2; omega
      | succ k => exact ⟨k, by omega, by rw [Nat.add_assoc, Nat.add_comm 1 k]; exact h2⟩

/-! ### Register runs -/

theorem readRegs_length (v : Vector Byte 16) (x : Reg) : (readRegs v x).length = x.toNat + 1 := by
  have := x.isLt
  simp only [readRegs, List.length_take, Vector.length_toList]
  omega

theorem readRegs_get (v : Vector Byte 16) (x : Reg) (k : Nat) (h : k < (readRegs v x).length) (hk : k < 16) :
    (readRegs v x)[k] = v[k] := by
  simp [readRegs]

theorem writeRegs_get (bs : List Byte) (v : Vector Byte 16) (k z : Nat) (hz : z < 16) :
    (writeRegs v k bs)[z] = if h : k ≤ z ∧ z < k + bs.length then bs[z - k]'(by omega) else v[z] := by
  induction bs generalizing v k with
  | nil => simp [writeRegs]
  | cons b bs ih =>
    rw [writeRegs, ih]
    simp only [List.length_cons]
    by_cases h1 : k + 1 ≤ z ∧ z < k + 1 + bs.length
    · have e : z - k = (z - (k + 1)) + 1 := by omega
      rw [dif_pos h1, dif_pos (by omega)]
      simp [e]
    · rw [dif_neg h1]
      by_cases h2 : z = k
      · subst h2
        rw [dif_pos (by omega)]
        simp
      · rw [dif_neg (by omega), Vector.getElem_setIfInBounds_ne]
        omega

/-! ### Keys -/

theorem keyIndex_in (p : Params) (b : Byte) (k : Fin 16) (h : b.toNat = k.val) : keyIndex p b = .ok k := by
  have hk := k.isLt
  rw [keyIndex, dif_pos (by omega)]
  exact congrArg _ (Fin.ext h)

theorem keyIndex_out (p : Params) (b : Byte) (h : 15 < b.toNat) (hp : p.keyIndexOob = .fault) :
    keyIndex p b = .error .keyIndexOutOfRange := by
  rw [keyIndex, dif_neg (by omega), hp]

theorem keyIndex_error {p : Params} {b : Byte} {k : FaultKind} (h : keyIndex p b = .error k) :
    k = .keyIndexOutOfRange := by
  unfold keyIndex at h
  split at h
  · cases h
  · split at h
    · cases h; rfl
    · cases h

theorem lowestKey_none (keys : Vector Bool 16) : lowestKey keys = none ↔ ∀ k : Fin 16, keys[k] = false := by
  simp only [lowestKey, List.findIdx?_eq_none_iff]
  constructor
  · intro h k
    exact h _ (by simp)
  · intro h b hb
    obtain ⟨k, hk, rfl⟩ := List.mem_iff_getElem.mp hb
    have := h ⟨k, by simpa using hk⟩
    simpa using this

/-- The key found is pressed, and every lower one is not. -/
theorem lowestKey_some (keys : Vector Bool 16) (k : Nat) :
    lowestKey keys = some k ↔ ∃ h : k < 16, keys[k] = true ∧ ∀ j (hj : j < k), keys[j] = false := by
  simp only [lowestKey, List.findIdx?_eq_some_iff_getElem]
  simp

end Sys2Proof.Machine
end

