-- ==== Sys2Proof/Laws/Display.lean ====
section
/-! SUPPORT. What drawing a sprite does to the display: the loops of draw-sprite plot a list of pixels with no repeats, so
each pixel is flipped exactly when it is in the list, and the collision says whether one of them was set. -/

namespace Sys2Proof.Machine

/-! ### One pixel -/

theorem Display.pixel_clear (x y : Nat) : Display.clear.pixel x y = false := by
  by_cases h : y < 32 <;> simp [Display.pixel, Display.clear, h]

/-- After `xor_pixel`, that pixel is flipped and no other is (R210). -/
theorem Display.pixel_xorPixel (d : Display) (x y x' y' : Nat) (hx : x < 64) (hy : y < 32) :
    Display.pixel (d.xorPixel x y).1 x' y' = (d.pixel x' y' ^^ decide ((x', y') = (x, y))) := by
  unfold Display.pixel Display.xorPixel
  rw [dif_pos hy]
  by_cases h : y' = y
  · subst h
    simp only [hy, Vector.getElem?_eq_getElem, Option.getD_some]
    by_cases h2 : x' = x
    · subst h2; simp [hx]
    · simp [h2, Ne.symm h2]
  · simp only [Vector.getElem?_set_ne hy (Ne.symm h)]
    simp [h]

/-- `xor_pixel` reports whether the pixel was set (R210). -/
theorem Display.xorPixel_snd (d : Display) (x y : Nat) : (d.xorPixel x y).2 = d.pixel x y := rfl

/-- Two displays whose pixels agree are equal. -/
theorem Display.ext_pixel (d d' : Display) (h : ∀ x y, x < 64 → y < 32 → d.pixel x y = d'.pixel x y) : d = d' := by
  apply Vector.ext
  intro y hy
  apply BitVec.eq_of_getLsbD_eq
  intro x hx
  have := h x y hx hy
  simpa [Display.pixel, hy] using this

/-! ### A list of pixels -/

/-- XOR one pixel and gather the collision. -/
def plot (acc : Display × Bool) (p : Nat × Nat) : Display × Bool :=
  ((acc.1.xorPixel p.1 p.2).1, acc.2 || (acc.1.xorPixel p.1 p.2).2)

/-- The pixels of one sprite row, in the order of the columns. -/
def rowPoints (e : DrawEdge) (x0 y0 : Byte) (row : Nat) (b : Byte) : List (Nat × Nat) :=
  (List.range 8).filterMap (fun col => if b.getLsbD (7 - col) then edge e x0 y0 col row else none)

/-- The pixels of the sprite's rows from `row` on. -/
def spritePoints (e : DrawEdge) (x0 y0 : Byte) (row : Nat) : List Byte → List (Nat × Nat)
  | [] => []
  | b :: bs => rowPoints e x0 y0 row b ++ spritePoints e x0 y0 (row + 1) bs

theorem foldl_drawBit (e : DrawEdge) (x0 y0 : Byte) (row : Nat) (b : Byte) (cols : List Nat) (acc : Display × Bool) :
    cols.foldl (drawBit e x0 y0 row b) acc =
      (cols.filterMap (fun col => if b.getLsbD (7 - col) then edge e x0 y0 col row else none)).foldl plot acc := by
  induction cols generalizing acc with
  | nil => rfl
  | cons c cs ih =>
    rw [List.foldl_cons, ih, List.filterMap_cons, drawBit]
    by_cases hb : b.getLsbD (7 - c) = true
    · simp only [hb, if_true]
      cases he : edge e x0 y0 c row with
      | none => rfl
      | some p => rfl
    · simp [hb]

/-- The loops of draw-sprite plot the sprite's pixels. -/
theorem drawRows_eq_plot (e : DrawEdge) (x0 y0 : Byte) (bs : List Byte) (row : Nat) (acc : Display × Bool) :
    drawRows e x0 y0 row bs acc = (spritePoints e x0 y0 row bs).foldl plot acc := by
  induction bs generalizing row acc with
  | nil => rfl
  | cons b bs ih =>
    rw [drawRows, ih, spritePoints, List.foldl_append, drawRow, foldl_drawBit]
    rfl

theorem edge_onGrid {e : DrawEdge} {x0 y0 : Byte} {col row : Nat} {p : Nat × Nat} (h : edge e x0 y0 col row = some p) :
    p.1 < 64 ∧ p.2 < 32 := by
  cases e
  · simp only [edge, Option.some.injEq] at h
    subst h
    exact ⟨Nat.mod_lt _ (by decide), Nat.mod_lt _ (by decide)⟩
  · simp only [edge, Bool.or_eq_true, decide_eq_true_eq, ge_iff_le] at h
    split at h
    · cases h
    · rename_i h'
      cases h
      simp only [not_or, Nat.not_le] at h'
      exact h'

/-- No two bits of a sprite fall on one pixel: 8 columns are fewer than 64 and its rows fewer than 32 (R212). -/
theorem edge_inj {e : DrawEdge} {x0 y0 : Byte} {c c' r r' : Nat} {p : Nat × Nat} (h : edge e x0 y0 c r = some p)
    (h' : edge e x0 y0 c' r' = some p) (hc : c < 8) (hc' : c' < 8) (hr : r < r' + 32) (hr' : r' < r + 32) :
    c = c' ∧ r = r' := by
  cases e
  · simp only [edge, Option.some.injEq] at h h'
    rw [← h, Prod.mk.injEq] at h'
    omega
  · simp only [edge] at h h'
    split at h
    · cases h
    · split at h'
      · cases h'
      · simp only [Option.some.injEq] at h h'
        rw [← h, Prod.mk.injEq] at h'
        omega

/-- `edge` gives a pixel exactly when the bit falls on it (R213). -/
theorem edge_eq_some (e : DrawEdge) (x0 y0 : Byte) (col row x y : Nat) :
    edge e x0 y0 col row = some (x, y) ↔ bitFallsOn e x0 y0 col row x y := by
  cases e
  · simp only [edge, bitFallsOn, Option.some.injEq, Prod.mk.injEq]
    omega
  · simp only [edge, bitFallsOn, Bool.or_eq_true, decide_eq_true_eq, ge_iff_le]
    split
    · simp only [reduceCtorEq, false_iff]
      omega
    · simp only [Option.some.injEq, Prod.mk.injEq]
      omega

theorem mem_rowPoints (e : DrawEdge) (x0 y0 : Byte) (row : Nat) (b : Byte) (p : Nat × Nat) :
    p ∈ rowPoints e x0 y0 row b ↔ ∃ col, col < 8 ∧ b.getLsbD (7 - col) = true ∧ edge e x0 y0 col row = some p := by
  simp only [rowPoints, List.mem_filterMap, List.mem_range]
  constructor
  · rintro ⟨c, hc, h⟩
    split at h
    · exact ⟨c, hc, by assumption, h⟩
    · cases h
  · rintro ⟨c, hc, hb, h⟩
    exact ⟨c, hc, by rw [if_pos hb]; exact h⟩

theorem mem_spritePoints (e : DrawEdge) (x0 y0 : Byte) (bs : List Byte) (row : Nat) (p : Nat × Nat) :
    p ∈ spritePoints e x0 y0 row bs ↔ ∃ r, ∃ h : r < bs.length, ∃ col, col < 8 ∧ bs[r].getLsbD (7 - col) = true ∧
      edge e x0 y0 col (row + r) = some p := by
  induction bs generalizing row with
  | nil => simp [spritePoints]
  | cons b bs ih =>
    rw [spritePoints, List.mem_append, mem_rowPoints, ih]
    constructor
    · rintro (h | ⟨r, hr, col, h1, h2, h3⟩)
      · exact ⟨0, by simp, h⟩
      · refine ⟨r + 1, by simpa using hr, col, h1, by simpa using h2, ?_⟩
        rw [← h3]; congr 1; omega
    · rintro ⟨r, hr, col, h1, h2, h3⟩
      cases r with
      | zero => exact .inl ⟨col, h1, by simpa using h2, h3⟩
      | succ r =>
        refine .inr ⟨r, by simpa using hr, col, h1, by simpa using h2, ?_⟩
        rw [← h3]; congr 1; omega

theorem nodup_rowPoints (e : DrawEdge) (x0 y0 : Byte) (row : Nat) (b : Byte) : (rowPoints e x0 y0 row b).Nodup := by
  unfold rowPoints
  rw [List.nodup_iff_pairwise_ne, List.pairwise_filterMap]
  refine (List.nodup_range (n := 8)).imp_of_mem ?_
  intro c c' hc hc' hne p hp p' hp' heq
  subst heq
  split at hp
  swap
  · cases hp
  split at hp'
  swap
  · cases hp'
  exact hne (edge_inj hp hp' (List.mem_range.mp hc) (List.mem_range.mp hc') (by omega) (by omega)).1

theorem nodup_spritePoints (e : DrawEdge) (x0 y0 : Byte) (bs : List Byte) (row : Nat) (h : bs.length ≤ 32) :
    (spritePoints e x0 y0 row bs).Nodup := by
  induction bs generalizing row with
  | nil => exact List.nodup_nil
  | cons b bs ih =>
    simp only [List.length_cons] at h
    rw [spritePoints, List.nodup_append]
    refine ⟨nodup_rowPoints e x0 y0 row b, ih (row + 1) (by omega), ?_⟩
    intro p hp p' hp' heq
    subst heq
    rw [mem_rowPoints] at hp
    rw [mem_spritePoints] at hp'
    obtain ⟨c, hc, -, h1⟩ := hp
    obtain ⟨r, hr, c', hc', -, h2⟩ := hp'
    have := (edge_inj h1 h2 hc hc' (by omega) (by omega)).2
    omega

/-- Plotting pixels of the grid with no repeats flips exactly those, and gathers whether one of them was set. -/
theorem foldl_plot (ps : List (Nat × Nat)) (acc : Display × Bool) (hn : ps.Nodup) (hg : ∀ p ∈ ps, p.1 < 64 ∧ p.2 < 32) :
    (∀ x y, Display.pixel (ps.foldl plot acc).1 x y = (acc.1.pixel x y ^^ decide ((x, y) ∈ ps))) ∧
    ((ps.foldl plot acc).2 = true ↔ acc.2 = true ∨ ∃ p ∈ ps, acc.1.pixel p.1 p.2 = true) := by
  induction ps generalizing acc with
  | nil => simp
  | cons p ps ih =>
    obtain ⟨px, py⟩ := p
    obtain ⟨hp, hn'⟩ := List.nodup_cons.mp hn
    obtain ⟨hx, hy⟩ := hg (px, py) List.mem_cons_self
    obtain ⟨i1, i2⟩ := ih (plot acc (px, py)) hn' (fun q hq => hg q (List.mem_cons_of_mem _ hq))
    rw [List.foldl_cons]
    constructor
    · intro x y
      rw [i1 x y]
      simp only [plot, Display.pixel_xorPixel _ _ _ _ _ hx hy, List.mem_cons]
      by_cases h : (x, y) = (px, py)
      · have : (x, y) ∉ ps := by rw [h]; exact hp
        simp [h, hp]
      · simp [h]
    · rw [i2]
      simp only [plot, Display.xorPixel_snd, Bool.or_eq_true, List.mem_cons, exists_eq_or_imp]
      rw [or_assoc]
      refine or_congr_right (or_congr_right ⟨?_, ?_⟩)
      · rintro ⟨q, hq, h⟩
        refine ⟨q, hq, ?_⟩
        rw [Display.pixel_xorPixel _ _ _ _ _ hx hy] at h
        have : (q.1, q.2) ≠ (px, py) := by rintro h'; exact hp (h' ▸ hq)
        simpa [this] using h
      · rintro ⟨q, hq, h⟩
        refine ⟨q, hq, ?_⟩
        rw [Display.pixel_xorPixel _ _ _ _ _ hx hy]
        have : (q.1, q.2) ≠ (px, py) := by rintro h'; exact hp (h' ▸ hq)
        simpa [this] using h

/-- What the loops of draw-sprite do, said once (R212). -/
theorem drawRows_spec (e : DrawEdge) (x0 y0 : Byte) (bs : List Byte) (d : Display) (h : bs.length ≤ 32) :
    (∀ x y, Display.pixel (drawRows e x0 y0 0 bs (d, false)).1 x y =
      (d.pixel x y ^^ decide ((x, y) ∈ spritePoints e x0 y0 0 bs))) ∧
    ((drawRows e x0 y0 0 bs (d, false)).2 = true ↔ ∃ p ∈ spritePoints e x0 y0 0 bs, d.pixel p.1 p.2 = true) := by
  rw [drawRows_eq_plot]
  have hg : ∀ p ∈ spritePoints e x0 y0 0 bs, p.1 < 64 ∧ p.2 < 32 := by
    intro p hp
    obtain ⟨r, hr, c, -, -, he⟩ := (mem_spritePoints e x0 y0 bs 0 p).mp hp
    exact edge_onGrid he
  have := foldl_plot (spritePoints e x0 y0 0 bs) (d, false) (nodup_spritePoints e x0 y0 bs 0 h) hg
  simpa using this

end Sys2Proof.Machine
end

