-- ==== Sys2Proof/Laws/Exec.lean ====
section
/-! SUPPORT. What executing an instruction can do to the engine state, the inversion lemma that proofs over all
instructions start from; and how a run unfolds. -/

namespace Sys2Proof.Machine

/-- An instruction either completes, and leaves the engine state and the fault record alone, or takes a fault. -/
theorem execWith_cases (p : Params) (i : Instr) (s : State) :
    (∃ t, execWith p i s = .next t ∧ t.estate = s.estate ∧ t.faultKind = s.faultKind ∧ t.faultPc = s.faultPc) ∨
    ∃ k, execWith p i s = .next (s.takeFault k) := by
  cases i
  case ret =>
    by_cases h : s.depth.val = 0
    · exact .inr ⟨.stackUnderflow, by simp [execWith, exec, execRet, State.pop_of_zero s h]⟩
    · exact .inl (by simp [execWith, exec, execRet, State.pop_of_pos s (by omega)])
  case call =>
    by_cases h : s.depth.val < 16
    · exact .inl (by simp [execWith, exec, execCall, State.push_of_lt s _ h])
    · exact .inr ⟨.stackOverflow, by simp [execWith, exec, execCall, State.push_of_full s _ (by omega)]⟩
  case skp x =>
    cases h : keyIndex p (s.getV x) with
    | ok j => exact .inl (by simp [execWith, skpWith, State.skipOnKey, h])
    | error k => exact .inr ⟨k, by simp [execWith, skpWith, State.skipOnKey, h]⟩
  case sknp x =>
    cases h : keyIndex p (s.getV x) with
    | ok j => exact .inl (by simp [execWith, sknpWith, State.skipOnKey, h])
    | error k => exact .inr ⟨k, by simp [execWith, sknpWith, State.skipOnKey, h]⟩
  case drw x y n =>
    cases h : memReadBytes p s.mem (s.effAddr 0) n.toNat with
    | ok j => exact .inl (by simp [execWith, drwWith, h])
    | error k => exact .inr ⟨k, by simp [execWith, drwWith, h]⟩
  case ldVxI x =>
    cases h : memReadBytes p s.mem (s.effAddr 0) (x.toNat + 1) with
    | ok j => exact .inl (by simp [execWith, ldVxIWith, h])
    | error k => exact .inr ⟨k, by simp [execWith, ldVxIWith, h]⟩
  case ldBVx x =>
    cases h : memWriteBytes p s.mem (s.effAddr 0) (bcdDigits (s.getV x)) with
    | ok j => exact .inl (by simp [execWith, ldBVxWith, h])
    | error k => exact .inr ⟨k, by simp [execWith, ldBVxWith, h]⟩
  case ldIVx x =>
    cases h : memWriteBytes p s.mem (s.effAddr 0) (readRegs s.v x) with
    | ok j => exact .inl (by simp [execWith, ldIVxWith, h])
    | error k => exact .inr ⟨k, by simp [execWith, ldIVxWith, h]⟩
  case ldVxK x =>
    left
    cases h : lowestKey s.keys <;> simp [execWith, exec, execLdVxK, h]
  case addIVx x =>
    left
    cases h : p.addISetsVf <;> simp [execWith, addIVxWith, h]
  all_goals left; exact ⟨_, rfl, by simp⟩

/-- A run whose first step answers a next state goes on from it. -/
theorem run_succ {s t : State} (n : Nat) (h : step s = .next t) : core.run (n + 1) s = core.run n t := by
  have h' : core.step s = .next t := h
  simp only [Host.Core.run, h']

end Sys2Proof.Machine
end

