-- ==== Sys2Proof/Laws/PerInstr.lean ====
section
/-! SUPPORT. A family of facts per instruction: the code of every instruction matches its row of the opcode map, whatever
its operands (spec/30_encoding.md R95, R102). -/

namespace Sys2Proof.Laws.EncodeHeader

theorem or_and (a b k : Code) : (a ||| b) &&& k = a &&& k ||| b &&& k := by
  apply BitVec.eq_of_getLsbD_eq
  intro j _
  simp only [BitVec.getLsbD_and, BitVec.getLsbD_or, Bool.and_or_distrib_right]

/-- The operand bits stand outside the row's mask. -/
theorem or_and_of_clear (m b k : Code) (hm : m &&& k = m) (hb : b &&& k = 0#16) : (m ||| b) &&& k = m := by
  rw [or_and, hm, hb, BitVec.or_zero]

theorem clear_low {w : Nat} (a : BitVec w) (h : w ≤ 12) : zext16 a &&& 0xF000#16 = 0#16 := by
  apply BitVec.eq_of_getLsbD_eq
  intro k hk
  by_cases hw : k < 12
  · have key : ∀ j : Fin 12, (0xF000#16).getLsbD j.val = false := by decide
    have : (0xF000#16).getLsbD k = false := key ⟨k, hw⟩
    simp [this]
  · simp [BitVec.getLsbD_of_ge a k (by omega)]

theorem clear_nnn (a : Addr12) : zext16 a &&& 0xF000#16 = 0#16 := clear_low a (by decide)
theorem clear_nn (b : Byte) : zext16 b &&& 0xF000#16 = 0#16 := clear_low b (by decide)
theorem clear_x (x : Reg) : zext16 x <<< 8 &&& 0xF0FF#16 = 0#16 := by revert x; decide
theorem clear_x_f (x : Reg) : zext16 x <<< 8 &&& 0xF000#16 = 0#16 := by revert x; decide
theorem clear_x_n (x : Reg) : zext16 x <<< 8 &&& 0xF00F#16 = 0#16 := by revert x; decide
theorem clear_y_n (y : Reg) : zext16 y <<< 4 &&& 0xF00F#16 = 0#16 := by revert y; decide
theorem clear_y_f (y : Reg) : zext16 y <<< 4 &&& 0xF000#16 = 0#16 := by revert y; decide
theorem clear_n_f (n : Nibble) : zext16 n &&& 0xF000#16 = 0#16 := by revert n; decide

theorem clear_xnn (x : Reg) (b : Byte) : (zext16 x <<< 8 ||| zext16 b) &&& 0xF000#16 = 0#16 := by
  rw [or_and, clear_x_f, clear_nn, BitVec.or_zero]
theorem clear_xy (x y : Reg) : (zext16 x <<< 8 ||| zext16 y <<< 4) &&& 0xF00F#16 = 0#16 := by
  rw [or_and, clear_x_n, clear_y_n, BitVec.or_zero]
theorem clear_xyn (x y : Reg) (n : Nibble) : (zext16 x <<< 8 ||| zext16 y <<< 4 ||| zext16 n) &&& 0xF000#16 = 0#16 := by
  rw [or_and, or_and, clear_x_f, clear_y_f, clear_n_f, BitVec.or_zero,
    BitVec.or_zero]

/-- A row's match lies inside its mask. -/
theorem match_and_mask (o : Opcode) : o.matchWord &&& o.maskWord = o.matchWord := by cases o <;> decide

/-- The code of an instruction, under its row's mask, is the row's match. -/
def Statement (i : Instr) : Prop := encode i &&& i.opcode.maskWord = i.opcode.matchWord

theorem cls : Statement .cls := by unfold Statement; decide
theorem ret : Statement .ret := by unfold Statement; decide
theorem jp (nnn : Addr12) : Statement (.jp nnn) := or_and_of_clear _ _ _ (match_and_mask _) (clear_nnn nnn)
theorem call (nnn : Addr12) : Statement (.call nnn) := or_and_of_clear _ _ _ (match_and_mask _) (clear_nnn nnn)
theorem seImm (x : Reg) (nn : Byte) : Statement (.seImm x nn) := or_and_of_clear _ _ _ (match_and_mask _) (clear_xnn x nn)
theorem sneImm (x : Reg) (nn : Byte) : Statement (.sneImm x nn) := or_and_of_clear _ _ _ (match_and_mask _) (clear_xnn x nn)
theorem seReg (x : Reg) (y : Reg) : Statement (.seReg x y) := or_and_of_clear _ _ _ (match_and_mask _) (clear_xy x y)
theorem ldImm (x : Reg) (nn : Byte) : Statement (.ldImm x nn) := or_and_of_clear _ _ _ (match_and_mask _) (clear_xnn x nn)
theorem addImm (x : Reg) (nn : Byte) : Statement (.addImm x nn) := or_and_of_clear _ _ _ (match_and_mask _) (clear_xnn x nn)
theorem ldReg (x : Reg) (y : Reg) : Statement (.ldReg x y) := or_and_of_clear _ _ _ (match_and_mask _) (clear_xy x y)
theorem orReg (x : Reg) (y : Reg) : Statement (.orReg x y) := or_and_of_clear _ _ _ (match_and_mask _) (clear_xy x y)
theorem andReg (x : Reg) (y : Reg) : Statement (.andReg x y) := or_and_of_clear _ _ _ (match_and_mask _) (clear_xy x y)
theorem xorReg (x : Reg) (y : Reg) : Statement (.xorReg x y) := or_and_of_clear _ _ _ (match_and_mask _) (clear_xy x y)
theorem addReg (x : Reg) (y : Reg) : Statement (.addReg x y) := or_and_of_clear _ _ _ (match_and_mask _) (clear_xy x y)
theorem subReg (x : Reg) (y : Reg) : Statement (.subReg x y) := or_and_of_clear _ _ _ (match_and_mask _) (clear_xy x y)
theorem shr (x : Reg) (y : Reg) : Statement (.shr x y) := or_and_of_clear _ _ _ (match_and_mask _) (clear_xy x y)
theorem subnReg (x : Reg) (y : Reg) : Statement (.subnReg x y) := or_and_of_clear _ _ _ (match_and_mask _) (clear_xy x y)
theorem shl (x : Reg) (y : Reg) : Statement (.shl x y) := or_and_of_clear _ _ _ (match_and_mask _) (clear_xy x y)
theorem sneReg (x : Reg) (y : Reg) : Statement (.sneReg x y) := or_and_of_clear _ _ _ (match_and_mask _) (clear_xy x y)
theorem ldI (nnn : Addr12) : Statement (.ldI nnn) := or_and_of_clear _ _ _ (match_and_mask _) (clear_nnn nnn)
theorem jpV0 (nnn : Addr12) : Statement (.jpV0 nnn) := or_and_of_clear _ _ _ (match_and_mask _) (clear_nnn nnn)
theorem rnd (x : Reg) (nn : Byte) : Statement (.rnd x nn) := or_and_of_clear _ _ _ (match_and_mask _) (clear_xnn x nn)
theorem drw (x : Reg) (y : Reg) (n : Nibble) : Statement (.drw x y n) := or_and_of_clear _ _ _ (match_and_mask _) (clear_xyn x y n)
theorem skp (x : Reg) : Statement (.skp x) := or_and_of_clear _ _ _ (match_and_mask _) (clear_x x)
theorem sknp (x : Reg) : Statement (.sknp x) := or_and_of_clear _ _ _ (match_and_mask _) (clear_x x)
theorem ldVxDt (x : Reg) : Statement (.ldVxDt x) := or_and_of_clear _ _ _ (match_and_mask _) (clear_x x)
theorem ldVxK (x : Reg) : Statement (.ldVxK x) := or_and_of_clear _ _ _ (match_and_mask _) (clear_x x)
theorem ldDtVx (x : Reg) : Statement (.ldDtVx x) := or_and_of_clear _ _ _ (match_and_mask _) (clear_x x)
theorem ldStVx (x : Reg) : Statement (.ldStVx x) := or_and_of_clear _ _ _ (match_and_mask _) (clear_x x)
theorem addIVx (x : Reg) : Statement (.addIVx x) := or_and_of_clear _ _ _ (match_and_mask _) (clear_x x)
theorem ldFVx (x : Reg) : Statement (.ldFVx x) := or_and_of_clear _ _ _ (match_and_mask _) (clear_x x)
theorem ldBVx (x : Reg) : Statement (.ldBVx x) := or_and_of_clear _ _ _ (match_and_mask _) (clear_x x)
theorem ldIVx (x : Reg) : Statement (.ldIVx x) := or_and_of_clear _ _ _ (match_and_mask _) (clear_x x)
theorem ldVxI (x : Reg) : Statement (.ldVxI x) := or_and_of_clear _ _ _ (match_and_mask _) (clear_x x)

end Sys2Proof.Laws.EncodeHeader
end

