-- ==== Sys2Proof/Tests/Slice0.lean ====
section
/-! SUPPORT. The model's own tests: the well-formedness smoke tests, a word of every row decoded, one-step tests with the
results of spec/95_test_vectors.md (the vector's id stands before each), and for every obligation with hypotheses a state
and operands that meet them. -/

namespace Sys2Proof.Tests

open Sys2Proof.Machine

/-! ### Well-formedness: each check refuses an ill-formed line (R102) -/

theorem test_wf_line : (RawInstr.mk .drw { x := 15, y := 15, n := 15 }).wellFormed = true := by decide
theorem test_wf_x : (RawInstr.mk .skp { x := 16 }).wellFormed = false := by decide
theorem test_wf_y : (RawInstr.mk .addReg { x := 0, y := 16 }).wellFormed = false := by decide
theorem test_wf_n : (RawInstr.mk .drw { x := 0, y := 0, n := 16 }).wellFormed = false := by decide
theorem test_wf_nn : (RawInstr.mk .ldImm { x := 0, nn := 256 }).wellFormed = false := by decide
theorem test_wf_nnn : (RawInstr.mk .call { nnn := 0x1000 }).wellFormed = false := by decide
/-- R102: "an assembler refuses a value that does not fit". -/
theorem test_wf_refused : (RawInstr.mk .ldI { nnn := 4096 }).toInstr = none := by decide
/-- R102: `LD I, 0x22A` is 0xA22A. -/
theorem test_wf_encoded : (RawInstr.mk .ldI { nnn := 0x22A }).toInstr.map encode = some 0xA22A#16 := by decide

/-! ### Decoding: one word of every row, written from R95 (pattern) and R91 (fields) -/

theorem test_decode_family0 :
    decode 0b0000000011100000 = .ok .cls ∧                     -- 00E0
    decode 0b0000000011101110 = .ok .ret := by decide          -- 00EE

theorem test_decode_jumps :
    decode 0b0001001000110100 = .ok (.jp 0x234) ∧              -- 1NNN, 0x1234 (R122)
    decode 0b0010001100000000 = .ok (.call 0x300) ∧            -- 2NNN, 0x2300 (R123)
    decode 0b1011001100000000 = .ok (.jpV0 0x300) := by decide -- BNNN, 0xB300 (R128)

theorem test_decode_skips :
    decode 0b0011001000010000 = .ok (.seImm 2 0x10) ∧          -- 3XNN, 0x3210 (R124)
    decode 0b0100001000010000 = .ok (.sneImm 2 0x10) ∧         -- 4XNN, 0x4210 (R125)
    decode 0b0101000100100000 = .ok (.seReg 1 2) ∧             -- 5XY0, 0x5120 (R126)
    decode 0b1001000100100000 = .ok (.sneReg 1 2) := by decide -- 9XY0, 0x9120 (R127)

theorem test_decode_immediates :
    decode 0b0110000000000101 = .ok (.ldImm 0 0x05) ∧          -- 6XNN, 0x6005 (R96)
    decode 0b0111001100100000 = .ok (.addImm 3 0x20) ∧         -- 7XNN, 0x7320 (R152)
    decode 0b1100001100001111 = .ok (.rnd 3 0x0F) := by decide -- CXNN, 0xC30F (R162)

theorem test_decode_family8 :
    decode 0b1000000000010000 = .ok (.ldReg 0 1) ∧             -- 8XY0
    decode 0b1000000000010001 = .ok (.orReg 0 1) ∧             -- 8XY1
    decode 0b1000000000010010 = .ok (.andReg 0 1) ∧            -- 8XY2
    decode 0b1000000000010011 = .ok (.xorReg 0 1) ∧            -- 8XY3
    decode 0b1000000000010100 = .ok (.addReg 0 1) ∧            -- 8XY4
    decode 0b1000000000010101 = .ok (.subReg 0 1) ∧            -- 8XY5
    decode 0b1000010001010110 = .ok (.shr 4 5) ∧               -- 8XY6, 0x8456 (R159)
    decode 0b1000000000010111 = .ok (.subnReg 0 1) ∧           -- 8XY7
    decode 0b1000010001011110 = .ok (.shl 4 5) := by decide    -- 8XYE, 0x845E (R161)

theorem test_decode_index :
    decode 0b1010001000101010 = .ok (.ldI 0x22A) ∧             -- ANNN, 0xA22A (R96)
    decode 0b1111001000011110 = .ok (.addIVx 2) ∧              -- FX1E, 0xF21E (R182)
    decode 0b1111000000101001 = .ok (.ldFVx 0) ∧               -- FX29, 0xF029 (R183)
    decode 0b1111010100110011 = .ok (.ldBVx 5) ∧               -- FX33, 0xF533 (R184)
    decode 0b1111000001010101 = .ok (.ldIVx 0) ∧               -- FX55, 0xF055 (R96)
    decode 0b1111000001100101 = .ok (.ldVxI 0) := by decide    -- FX65, 0xF065 (R186)

theorem test_decode_display_keys_timers :
    decode 0b1101000100100101 = .ok (.drw 1 2 5) ∧             -- DXYN, 0xD125 (R102)
    decode 0b1110000110011110 = .ok (.skp 1) ∧                 -- EX9E, 0xE19E (R230)
    decode 0b1110000110100001 = .ok (.sknp 1) ∧                -- EXA1, 0xE1A1 (R231)
    decode 0b1111001100000111 = .ok (.ldVxDt 3) ∧              -- FX07, 0xF307 (R232)
    decode 0b1111001000001010 = .ok (.ldVxK 2) ∧               -- FX0A, 0xF20A (R233)
    decode 0b1111000000010101 = .ok (.ldDtVx 0) ∧              -- FX15, 0xF015 (R234)
    decode 0b1111000000011000 = .ok (.ldStVx 0) := by decide   -- FX18, 0xF018 (R235)

/-- DE1–DE8, AL32, AL33, KT7: codes that match no row. -/
theorem test_decode_unknown :
    ([0x0000, 0x0123, 0x00E1, 0x00FF, 0x5121, 0x9121, 0x8008, 0x800D, 0x8018, 0x801F, 0xE000, 0xE0A2, 0xE19F, 0xF000, 0xF056,
      0xFFFF] : List Code).all (fun c => decide (decode c = .error (.unknownOpcode c))) = true := by decide

/-- CF19: with `DECODE_5_9_IGNORE_N` = true, 0x5121 is SE V1, V2. -/
theorem test_decode_ignoring_n : decodeWith true 0x5121 = .ok (.seReg 1 2) := by decide

/-! ### One step on a small state -/

/-- Reset with some registers set. -/
def regs (rs : List (Reg × Byte)) : State := rs.foldl (fun s r => s.setV r.1 r.2) State.reset

/-- One step with the code at `pc`, and what is asked of the next state. -/
def ran {α : Type} (w : Nat) (s : State) (ask : State → α) : Option α :=
  match step (s.withFetchWord 16 w) with
  | .next t => some (ask t)
  | _ => none

/-- The same under other parameters. -/
def ranWith {α : Type} (p : Params) (w : Nat) (s : State) (ask : State → α) : Option α :=
  match stepWith p (s.withFetchWord 16 w) with
  | .next t => some (ask t)
  | _ => none

/-- Three bytes of memory from an address on. -/
def three (a : Nat) (t : State) : Byte × Byte × Byte := (t.mem.read a, t.mem.read (a + 1), t.mem.read (a + 2))

/-- The pixels that are set, of some that are asked for. -/
def lit (ps : List (Nat × Nat)) (t : State) : List (Nat × Nat) := ps.filter (fun p => Display.pixel t.display p.1 p.2)

/-- CF1 -/
theorem test_jp : ran 0x1234 State.reset (·.pc) = some 0x234 := by decide
/-- CF5 -/
theorem test_call : ran 0x2300 State.reset (fun t => (t.stack[0], t.depth, t.pc)) = some (0x200, 1, 0x300) := by decide
/-- CF7 -/
theorem test_call_full : ran 0x2300 { State.reset with depth := 16 } (fun t => (t.faultKind, t.faultPc, t.depth, t.pc)) =
    some (some .stackOverflow, 0x200, 16, 0x200) := by decide
/-- CF8 -/
theorem test_ret : ran 0x00EE { State.reset with depth := 1, stack := State.reset.stack.set 0 0x204 }
    (fun t => (t.depth, t.pc, t.stack[0])) = some (0, 0x206, 0x204) := by decide
/-- CF9 -/
theorem test_ret_empty : ran 0x00EE State.reset (fun t => (t.estate, t.faultKind, t.faultPc)) =
    some (.faulted, some .stackUnderflow, 0x200) := by decide
/-- CF11, CF12 -/
theorem test_se_imm : ran 0x3A42 (regs [(10, 0x42)]) (·.pc) = some 0x204 ∧ ran 0x3A42 (regs [(10, 0x43)]) (·.pc) = some 0x202 := by decide
/-- CF13, CF14 -/
theorem test_sne_imm : ran 0x4A42 (regs [(10, 0x42)]) (·.pc) = some 0x202 ∧ ran 0x4A42 State.reset (·.pc) = some 0x204 := by decide
/-- CF15, CF16 -/
theorem test_se_reg : ran 0x5120 (regs [(1, 7), (2, 7)]) (·.pc) = some 0x204 ∧ ran 0x5120 (regs [(1, 7), (2, 8)]) (·.pc) = some 0x202 := by decide
/-- CF17, CF18 -/
theorem test_sne_reg : ran 0x9120 (regs [(1, 7), (2, 8)]) (·.pc) = some 0x204 ∧ ran 0x9120 (regs [(1, 7), (2, 7)]) (·.pc) = some 0x202 := by decide
/-- CF22 -/
theorem test_jp_v0 : ran 0xBFFF (regs [(0, 0xFF)]) (·.pc) = some 0x10FE := by decide
/-- CF3, FS5: the fetch at 0xFFF -/
theorem test_fetch_bound : step { State.reset with pc := 0xFFF } =
    .next { State.reset with pc := 0xFFF, estate := .faulted, faultKind := some .fetchOutOfBounds, faultPc := 0xFFF } := rfl
/-- CF24: an odd `pc` -/
theorem test_fetch_odd : ran 0x6007 { State.reset with pc := 0x201 } (fun t => (t.getV 0, t.pc)) = some (7, 0x203) := by decide

/-- AL1 -/
theorem test_ld_imm : ran 0x6AFF State.reset (·.getV 10) = some 0xFF := by decide
/-- AL3 -/
theorem test_add_imm : ran 0x7001 (regs [(0, 0xFF), (15, 0x55)]) (fun t => (t.getV 0, t.getV 15)) = some (0, 0x55) := by decide
/-- AL6 -/
theorem test_ld_reg : ran 0x8010 (regs [(1, 0x12), (15, 0x55)]) (fun t => (t.getV 0, t.getV 15)) = some (0x12, 0x55) := by decide
/-- AL7 -/
theorem test_or : ran 0x8011 (regs [(0, 0x0F), (1, 0xF0), (15, 0x55)]) (fun t => (t.getV 0, t.getV 15)) = some (0xFF, 0x55) := by decide
/-- AL8 -/
theorem test_and : ran 0x8012 (regs [(0, 0x3C), (1, 0x0F), (15, 0x55)]) (fun t => (t.getV 0, t.getV 15)) = some (0x0C, 0x55) := by decide
/-- AL9 -/
theorem test_xor : ran 0x8013 (regs [(0, 0x3C), (1, 0x0F), (15, 0x55)]) (fun t => (t.getV 0, t.getV 15)) = some (0x33, 0x55) := by decide
/-- AL13 -/
theorem test_add : ran 0x8014 (regs [(0, 0xFF), (1, 0xFF)]) (fun t => (t.getV 0, t.getV 15)) = some (0xFE, 1) := by decide
/-- AL15, AL16: `VF` as destination and as operand -/
theorem test_add_vf : ran 0x8F14 (regs [(15, 0x10), (1, 0xF5)]) (·.getV 15) = some 1 ∧
    ran 0x80F4 (regs [(0, 1), (15, 2)]) (fun t => (t.getV 0, t.getV 15)) = some (3, 0) := by decide
/-- AL18, AL19 -/
theorem test_sub : ran 0x8015 (regs [(0, 3), (1, 5)]) (fun t => (t.getV 0, t.getV 15)) = some (0xFE, 0) ∧
    ran 0x8015 (regs [(0, 7), (1, 7)]) (fun t => (t.getV 0, t.getV 15)) = some (0, 1) := by decide
/-- AL21 -/
theorem test_shr : ran 0x8456 (regs [(4, 5), (5, 9)]) (fun t => (t.getV 4, t.getV 15, t.getV 5)) = some (2, 1, 9) := by decide
/-- AL25, AL26 -/
theorem test_subn : ran 0x8017 (regs [(0, 3), (1, 5)]) (fun t => (t.getV 0, t.getV 15)) = some (2, 1) ∧
    ran 0x8017 (regs [(0, 5), (1, 3)]) (fun t => (t.getV 0, t.getV 15)) = some (0xFE, 0) := by decide
/-- AL28, AL30 -/
theorem test_shl : ran 0x800E (regs [(0, 0x81)]) (fun t => (t.getV 0, t.getV 15)) = some (2, 1) ∧
    ran 0x801E (regs [(0, 0x40), (1, 0xFF)]) (fun t => (t.getV 0, t.getV 15)) = some (0x80, 0) := by decide
/-- AL36: any draw is what `V[0]` becomes -/
theorem test_rnd : ran 0xC0FF State.reset (fun t => (t.getV 0, t.draws)) = some (Config.randomByte 0, 1) := by
  have h : ran 0xC0FF State.reset (fun t => (t.getV 0, t.draws)) = some (Config.randomByte 0 &&& 0xFF#8, 1) := rfl
  rw [h, show (0xFF#8 : Byte) = BitVec.allOnes 8 from rfl, BitVec.and_allOnes]

/-- IM1 -/
theorem test_ld_i : ran 0xA123 State.reset (·.i) = some 0x123 := by decide
/-- IM5, IM4 -/
theorem test_add_i : ran 0xF01E (regs [(0, 1)] |>.setI 0xFFF) (fun t => (t.i, t.getV 15)) = some (0x1000, 1) ∧
    ran 0xF01E (State.reset.setI 0xFFF) (fun t => (t.i, t.getV 15)) = some (0xFFF, 0) := by decide
/-- IM6 -/
theorem test_add_i_no_flag : ranWith { params with addISetsVf := false } 0xF01E (regs [(0, 1), (15, 0x55)] |>.setI 0xFFF)
    (fun t => (t.i, t.getV 15)) = some (0x1000, 0x55) := by decide
/-- IM11 -/
theorem test_ld_f : ran 0xF029 (regs [(0, 0x10)]) (·.i) = some 0x050 := by decide
/-- IM13 -/
theorem test_bcd : ran 0xF533 (regs [(5, 156)] |>.setI 0x300) (fun t => (three 0x300 t, t.i)) = some ((1, 5, 6), 0x300) := by decide
/-- IM19 -/
theorem test_bcd_glyph : ran 0xF533 (regs [(5, 156)] |>.setI 0x04F) (three 0x04F) = some (0x80, 5, 6) := by decide
/-- IM20 -/
theorem test_bcd_glyph_fault : ranWith { params with glyphWrite := .fault } 0xF533 (regs [(5, 156)] |>.setI 0x04F)
    (fun t => (t.faultKind, three 0x04F t)) = some (some .glyphRegionWrite, (0x80, 0, 0)) := by decide
/-- IM18 -/
theorem test_bcd_wrap : ranWith { params with dataOob := .wrap } 0xF533 (regs [(5, 156)] |>.setI 0xFFE)
    (fun t => (t.mem.read 0xFFE, t.mem.read 0xFFF, t.mem.read 0)) = some (1, 5, 0xF0) := by decide
/-- IM21 -/
theorem test_dump : ran 0xF255 (regs [(0, 1), (1, 2), (2, 3)] |>.setI 0x300) (fun t => (three 0x300 t, t.i)) =
    some ((1, 2, 3), 0x303) := by decide
/-- IM23 -/
theorem test_dump_out : ran 0xF155 (regs [(0, 9)] |>.setI 0xFFF) (fun t => (t.faultKind, t.mem.read 0xFFF, t.i)) =
    some (some .memoryOutOfBounds, 0, 0xFFF) := by decide
/-- IM26 -/
theorem test_load : ran 0xF465 State.reset (fun t => (t.getV 0, t.getV 1, t.getV 4, t.getV 5, t.i)) =
    some (0xF0, 0x90, 0xF0, 0, 0x005) := by decide
/-- IM29 -/
theorem test_load_wrap : ranWith { params with dataOob := .wrap } 0xF065 (State.reset.setI 0x1000) (fun t => (t.getV 0, t.i)) =
    some (0xF0, 0x1001) := by decide

/-- DP1 -/
theorem test_cls : ran 0x00E0 { regs [(15, 0x55)] with display := State.reset.display.set 5 0x20 }
    (fun t => (lit [(5, 5)] t, t.drawPending, t.getV 15)) = some ([], true, 0x55) := by decide
/-- DP2: the 14 pixels, and four of the others -/
theorem test_drw : ran 0xD015 (regs [(15, 0x55)])
    (fun t => (lit [(0, 0), (1, 0), (2, 0), (3, 0), (4, 0), (0, 1), (1, 1), (3, 1), (0, 2), (3, 2), (0, 3), (2, 3), (3, 3),
      (0, 4), (1, 4), (2, 4), (3, 4), (0, 5)] t, t.getV 15, t.drawPending)) =
    some ([(0, 0), (1, 0), (2, 0), (3, 0), (0, 1), (3, 1), (0, 2), (3, 2), (0, 3), (3, 3), (0, 4), (1, 4), (2, 4), (3, 4)],
      0, true) := by decide
/-- DP12, in both edge modes -/
theorem test_drw_edge :
    let s : State := { regs [(1, 31)] with i := 0x300, mem := [(0x300, 0x80), (0x301, 0x80)], display := State.reset.display.set 31 1 }
    ran 0xD012 s (fun t => (lit [(0, 31), (0, 0)] t, t.getV 15)) = some ([(0, 0)], 1) ∧
    ranWith { params with drawEdge := .clip } 0xD012 s (fun t => (lit [(0, 31), (0, 0)] t, t.getV 15)) = some ([], 1) := by decide

/-- KT1, KT2 -/
theorem test_skp : ran 0xE19E { regs [(1, 5)] with keys := State.reset.keys.set 5 true } (·.pc) = some 0x204 ∧
    ran 0xE19E (regs [(1, 5)]) (·.pc) = some 0x202 := by decide
/-- KT3, KT4 -/
theorem test_sknp : ran 0xE1A1 (regs [(1, 5)]) (·.pc) = some 0x204 ∧
    ran 0xE1A1 { regs [(1, 5)] with keys := State.reset.keys.set 5 true } (·.pc) = some 0x202 := by decide
/-- KT5, KT6 -/
theorem test_skp_index : ran 0xE19E (regs [(1, 0x15)]) (·.faultKind) = some (some .keyIndexOutOfRange) ∧
    ranWith { params with keyIndexOob := .lowNibble } 0xE19E { regs [(1, 0x15)] with keys := State.reset.keys.set 5 true }
      (·.pc) = some 0x204 := by decide
/-- KT8 -/
theorem test_ld_vx_dt : ran 0xF307 (State.reset.setDt 0x3C) (fun t => (t.getV 3, t.dt)) = some (0x3C, 0x3C) := by decide
/-- KT9 -/
theorem test_ld_vx_k : ran 0xF20A { State.reset with keys := (State.reset.keys.set 3 true).set 9 true }
    (fun t => (t.getV 2, t.pc)) = some (3, 0x202) := by decide
/-- KT10, its first step -/
theorem test_ld_vx_k_blocked : ran 0xF20A State.reset (fun t => (t.pc, t.estate, t.v == State.reset.v)) =
    some (0x200, .running, true) := by decide
/-- KT12 -/
theorem test_ld_dt_vx : ran 0xF015 (regs [(0, 60)]) (·.dt) = some 60 := by decide
/-- KT13 -/
theorem test_ld_st_vx : ran 0xF018 (regs [(0, 2)]) (fun t => (t.st, soundActive t)) = some (2, true) := by decide

/-! ### The host's operations -/

/-- FS2: a tick in Faulted -/
theorem test_tick_faulted : transact .tickDelay { State.reset with estate := .faulted, dt := 5 } =
    .ok ({ State.reset with estate := .faulted, dt := 4 }, .done) := by decide
/-- RL2, L1.10: a program of two bytes -/
theorem test_load_program : (hostLoad [0x60, 0x05] { State.reset with pc := 0x456 }).1 =
    { State.reset with mem := [(0x200, 0x60), (0x201, 0x05)] } := by decide
/-- CF19: what the step reports -/
theorem test_step_report : transact .step (State.reset.withFetchWord 16 0x5121) =
    .ok ({ State.reset.withFetchWord 16 0x5121 with pc := 0x202, estate := .running },
      .stepped false (some ⟨0x5121, 0x200⟩)) := by decide
/-- RL5 -/
theorem test_glyph_f : [0x04B, 0x04C, 0x04D, 0x04E, 0x04F].map State.reset.mem.read = [0xF0, 0x80, 0xF0, 0x80, 0x80] := by decide
/-- L1.11, its last store: storing what an unlisted address reads as lists nothing -/
theorem test_store_canonical : (Memory.store [(0x22A, 3)] 0x22A 0).wf = true ∧ Memory.store [(0x22A, 3)] 0x22A 0 = [] := by decide

/-! ### Witnesses: states and operands that meet the hypotheses of each obligation, clause by clause, at a boundary -/

theorem witness_DecodeInvertsEncode : (Instr.drw 15 15 15).wellFormed = true := by decide

theorem witness_EncodeInvertsDecode : decode 0xFF65 = .ok (.ldVxI 15) := by decide

theorem witness_DataAccessesFollowTheirPseudocode :
    ∃ p p' : Params, p.dataOob = .fault ∧ p.glyphWrite = .ignore ∧ p'.dataOob = .wrap ∧ p'.glyphWrite = .fault ∧
      memRead p [] 0xFFF = .ok 0 ∧ memRead p [] 0x1000 = .error .memoryOutOfBounds ∧ memRead p' [] 0x1000 = .ok 0xF0 ∧
      memWrite p [] 0x04F 7 = .ok [] ∧ memWrite p' [] 0x04F 7 = .error .glyphRegionWrite ∧
      memWrite p [] 0x050 7 = .ok [(0x050, 7)] :=
  ⟨params, { params with dataOob := .wrap, glyphWrite := .fault }, by decide⟩

theorem witness_FetchReadsTwoBytesBigEndian :
    (0xFFF#16).toNat + 1 > 0xFFF ∧ (0xFFE#16).toNat + 1 ≤ 0xFFF ∧ fetch16 [(0xFFE, 0x12), (0xFFF, 0x34)] 0xFFE = .ok 0x1234 := by
  decide

theorem witness_CanonicalMemoriesThatReadAlikeAreEqual :
    Memory.wf [(0x050, 7), (0xFFF, 1)] = true ∧ ∀ a, Memory.read [(0x050, 7), (0xFFF, 1)] a = Memory.read [(0x050, 7), (0xFFF, 1)] a :=
  ⟨by decide, fun _ => rfl⟩

theorem witness_FetchSeesStoredBytes :
    0x50 ≤ (State.reset.setI 0x050).i.toNat ∧ 0x50 ≤ (State.reset.setI 0xFF0).i.toNat ∧
    14 < (15 : Reg).toNat ∧ (State.reset.setI 0xFF0).i.toNat + (15 : Reg).toNat ≤ 0xFFF ∧
    1 < 2 ∧ (State.reset.setI 0xFFD).i.toNat + 2 ≤ 0xFFF := by
  decide

theorem witness_StepRunsDecodedInstruction :
    let s := State.reset.withFetchWord 16 0x6AFF
    s.live = true ∧ s.pc.toNat + 1 ≤ 0xFFF ∧
      decode (codeOfBytes (s.mem.read s.pc.toNat) (s.mem.read (s.pc.toNat + 1))) = .ok (.ldImm 10 0xFF) := by decide

theorem witness_FetchOutOfBoundsFaults : (State.reset.setPc 0xFFF).live = true ∧ (State.reset.setPc 0xFFF).pc.toNat + 1 > 0xFFF := by
  decide

theorem witness_UnknownCodeIsReportedAndSkipped :
    State.reset.live = true ∧ fetch16 State.reset.mem State.reset.pc = .ok 0 ∧ decode 0 = .error (.unknownOpcode 0) := by decide

theorem witness_LiveStepCompletesOrFaults : State.reset.live = true ∧ (State.reset.setEstate .running).live = true := by decide

theorem witness_FaultedStepFailsWithTheSameFault : (State.reset.takeFault .stackUnderflow).estate = .faulted := rfl

theorem witness_UninitializedEngineRefuses : (State.reset.setEstate .uninitialized).estate = .uninitialized := rfl

/-- The step it is about, from a state in which RET finds an empty stack. -/
theorem witness_FaultingStepHasNoEffect :
    ∃ s t : State, step s = .next t ∧ t.estate = .faulted := ⟨State.reset.withFetchWord 16 0x00EE, _, rfl, rfl⟩

theorem witness_EachInstructionRaisesOnlyItsFaults :
    let s := State.reset.setEstate .running
    let deep : State := { s with depth := 16 }
    let far := s.setI 0x1000
    let odd := s.setV 0 0x10
    let p : Params := { params with glyphWrite := .fault }
    s.estate = .running ∧
    (∃ t, execWith params .ret s = .next t ∧ t.estate = .faulted) ∧
    (∃ t, execWith params (.call 0) deep = .next t ∧ t.estate = .faulted) ∧
    (∃ t, execWith params (.skp 0) odd = .next t ∧ t.estate = .faulted) ∧
    (∃ t, execWith params (.drw 0 0 1) far = .next t ∧ t.estate = .faulted) ∧
    (∃ t, execWith params (.ldVxI 0) far = .next t ∧ t.estate = .faulted) ∧
    (∃ t, execWith params (.ldIVx 0) far = .next t ∧ t.estate = .faulted) ∧
    (∃ t, execWith p (.ldBVx 0) s = .next t ∧ t.faultKind = some .glyphRegionWrite) :=
  ⟨rfl, ⟨_, rfl, rfl⟩, ⟨_, rfl, rfl⟩, ⟨_, rfl, rfl⟩, ⟨_, rfl, rfl⟩, ⟨_, rfl, rfl⟩, ⟨_, rfl, rfl⟩, ⟨_, rfl, rfl⟩⟩

/-- A state of a run, one byte of the program stored, that meets the invariant and takes a step. -/
theorem witness_StepKeepsTheInvariant :
    ∃ s t : State, s.Inv ∧ step s = .next t :=
  ⟨{ State.reset with mem := [(0x200, 0x60)], estate := .running }, _,
    { memWf := by decide
      glyphs := fun a ha => by
        have : a ≠ 0x200 := by have := (show a < 80 from ha); omega
        show (if a = 0x200 then (0x60 : Byte) else unlistedByte a) = unlistedByte a
        rw [if_neg this]
      pcBound := by decide
      stackBound := by decide
      initialized := by decide
      faultRecord := by decide
      noFaultPc := fun _ => rfl }, rfl⟩

/-- The same for the transactions: a tick of a faulted engine. -/
theorem witness_TransactionsKeepTheInvariant :
    ∃ (s t : State) (r : Response), s.Inv ∧ transact .tickDelay s = .ok (t, r) :=
  ⟨{ State.reset with dt := 1, estate := .faulted, faultKind := some .stackUnderflow, faultPc := 0x200 }, _, _,
    { memWf := rfl
      glyphs := fun _ _ => rfl
      pcBound := by decide
      stackBound := by decide
      initialized := by decide
      faultRecord := by decide
      noFaultPc := by decide }, rfl⟩

/-- A step that stores across the end of the glyph region. -/
theorem witness_NoStepChangesTheGlyphRegion :
    ∃ t, stepWith params ((State.reset.setI 0x04F).withFetchWord 16 0xF155) = .next t ∧ t.mem.read 0x04F = 0x80 :=
  ⟨_, rfl, rfl⟩

theorem witness_OnlyStoresChangeMemory :
    (∃ t, exec (.ldBVx 5) (regs [(5, 156)] |>.setI 0xFFD) = .next t ∧ t.mem.read 0xFFF ≠ (0 : Byte)) ∧
    (∃ t, exec (.ldIVx 0) (regs [(0, 9)] |>.setI 0x050) = .next t ∧ t.mem.read 0x050 ≠ (0 : Byte)) :=
  ⟨⟨_, rfl, by decide⟩, ⟨_, rfl, by decide⟩⟩

theorem witness_OnlyClsAndDrwMarkARedraw :
    (∃ t, step (State.reset.withFetchWord 16 0x00E0) = .next t ∧ t.estate = .running ∧ t.drawPending = true) ∧
    (∃ t, step (State.reset.withFetchWord 16 0xD010) = .next t ∧ t.estate = .running ∧ t.drawPending = true) ∧
    (∃ t, step (State.reset.withFetchWord 16 0x6005) = .next t ∧ t.estate = .running ∧ t.drawPending = false) :=
  ⟨⟨_, rfl, rfl, rfl⟩, ⟨_, rfl, rfl, rfl⟩, ⟨_, rfl, rfl, rfl⟩⟩

/-- One instruction of each clause that changes `VF`. -/
theorem witness_VFKeepsItsValueOtherwise :
    ([.addReg 0 1, .drw 0 1 0, .addIVx 0, .ldImm 15 3, .addImm 15 1, .ldReg 15 0, .xorReg 15 15, .ldVxDt 15, .ldVxK 15, .ldVxI 15] :
      List Instr).all (fun i =>
        match execWith params i { regs [(15, 0x55)] with i := 0x300, keys := State.reset.keys.set 15 true } with
        | .next t => t.getV 15 != 0x55
        | _ => false) = true := by decide

theorem witness_EachFieldHasItsWriters :
    (∃ t, exec (.ldIVx 0) State.reset = .next t ∧ t.i ≠ State.reset.i) ∧
    (∃ t, exec (.call 0x300) State.reset = .next t ∧ t.stack ≠ State.reset.stack ∧ t.depth ≠ State.reset.depth) ∧
    (∃ t, exec (.ldDtVx 0) (regs [(0, 1)]) = .next t ∧ t.dt ≠ (regs [(0, 1)]).dt) ∧
    (∃ t, exec (.ldStVx 0) (regs [(0, 1)]) = .next t ∧ t.st ≠ (regs [(0, 1)]).st) ∧
    (∃ t, exec (.drw 0 0 1) State.reset = .next t ∧ t.display ≠ State.reset.display ∧ t.drawPending ≠ State.reset.drawPending) ∧
    (∃ t, exec (.rnd 0 0) State.reset = .next t ∧ t.draws ≠ State.reset.draws) ∧
    (∃ t, exec .ret State.reset = .next t ∧ t.estate ≠ State.reset.estate ∧ t.faultKind ≠ State.reset.faultKind ∧
      t.faultPc ≠ State.reset.faultPc) :=
  ⟨⟨_, rfl, by decide⟩, ⟨_, rfl, by decide, by decide⟩, ⟨_, rfl, by decide⟩, ⟨_, rfl, by decide⟩,
    ⟨_, rfl, by decide, by decide⟩, ⟨_, rfl, by decide⟩, ⟨_, rfl, by decide, by decide, by decide⟩⟩

theorem witness_OtherInstructionsAdvanceByTwo :
    let s := State.reset.setEstate .running
    (∃ t, exec (.ldImm 0 5) s = .next t ∧ t.estate = .running ∧ t.pc = s.pc + 2#16) ∧
    (∃ t, exec (.jp 0xFFF) s = .next t ∧ t.estate = .running ∧ t.pc = 0xFFF) ∧
    (∃ t, exec (.seImm 0 0) s = .next t ∧ t.estate = .running ∧ t.pc = s.pc + 4#16) ∧
    (∃ t, exec (.ldVxK 0) s = .next t ∧ t.estate = .running ∧ t = s) :=
  ⟨⟨_, rfl, rfl, rfl⟩, ⟨_, rfl, rfl, rfl⟩, ⟨_, rfl, rfl, rfl⟩, ⟨_, rfl, rfl, rfl⟩⟩

theorem witness_CallPushesItsOwnAddress :
    let full : State := { State.reset with depth := 16 }
    let last : State := { State.reset with depth := 15 }
    last.depth.val < 16 ∧ full.depth.val = 16 ∧ ∃ t, exec (.call 0x300) last = .next t ∧ t.depth.val = 16 ∧ t.stack[15] = 0x200 :=
  ⟨by decide, by decide, _, rfl, rfl, rfl⟩

theorem witness_ReturnResumesAfterTheCall :
    let full : State := { State.reset with depth := 16, stack := State.reset.stack.set 15 0xFFE }
    full.depth.val = (15 : Fin 16).val + 1 ∧ State.reset.depth.val = 0 ∧ ∃ t, exec .ret full = .next t ∧ t.pc = 0x1000 ∧ t.depth.val = 15 :=
  ⟨by decide, by decide, _, rfl, rfl, rfl⟩

theorem witness_CallThenReturnResumesAfterTheCall :
    let s : State := { State.reset with mem := [(0x200, 0x2F), (0x201, 0xFE), (0xFFF, 0xEE)], depth := 15 }
    s.live = true ∧ s.depth.val < 16 ∧ s.pc.toNat + 1 ≤ 0xFFF ∧
      decode (codeOfBytes (s.mem.read s.pc.toNat) (s.mem.read (s.pc.toNat + 1))) = .ok (.call 0xFFE) ∧
      (0xFFE#12).toNat + 1 ≤ 0xFFF ∧ s.mem.read 0xFFE = 0x00 ∧ s.mem.read 0xFFF = 0xEE := by decide

/-- Of the flag-writing results, the forms whose destination is not `VF`, and is. -/
theorem witness_AddSetsCarry_SubtractionsSetNotBorrow_ShiftsSetTheBitShiftedOut :
    (0 : Reg) ≠ Reg.vf ∧ (14 : Reg) ≠ Reg.vf ∧ (15 : Reg) = Reg.vf := by decide

theorem witness_AddToIndexSetsOverflow :
    params.addISetsVf = true ∧ ({ params with addISetsVf := false } : Params).addISetsVf = false := by decide

/-- The last index at which store-bcd completes, the first at which it faults, and both faults under other parameters. -/
theorem witness_StoreBcdWritesThreeDigits :
    let p : Params := { params with glyphWrite := .fault }
    let w : Params := { params with dataOob := .wrap }
    (State.reset.setI 0xFFD).i.toNat + 2 ≤ 0xFFF ∧ 0xFFF < (State.reset.setI 0xFFE).i.toNat + 2 ∧
    params.dataOob = .fault ∧ p.glyphWrite = .fault ∧ (State.reset.setI 0x04F).effAddr 0 % 4096 < 0x50 ∧
    (∀ k, k < 3 → 0x50 ≤ (State.reset.setI 0x050).effAddr k % 4096) ∧
    w.dataOob ≠ .fault ∧ (State.reset.setI 0xFFE).effAddr 1 % 4096 = 0xFFF ∧ (State.reset.setI 0xFFE).effAddr 2 % 4096 < 0x50 := by
  decide

theorem witness_RegisterDumpStoresRegisters :
    let p : Params := { params with glyphWrite := .fault }
    let w : Params := { params with dataOob := .wrap }
    (State.reset.setI 0xFF0).i.toNat + (15 : Reg).toNat ≤ 0xFFF ∧ 0xFFF < (State.reset.setI 0xFF1).i.toNat + (15 : Reg).toNat ∧
    params.dataOob = .fault ∧ p.glyphWrite = .fault ∧ (State.reset.setI 0x04F).effAddr 0 % 4096 < 0x50 ∧
    (∀ k, k ≤ 15 → 0x50 ≤ (State.reset.setI 0x050).effAddr k % 4096) ∧
    w.dataOob ≠ .fault ∧ (State.reset.setI 0xFF1).effAddr 14 % 4096 = 0xFFF := by decide

theorem witness_RegisterLoadFillsRegisters :
    let w : Params := { params with dataOob := .wrap }
    (State.reset.setI 0xFF0).i.toNat + (15 : Reg).toNat ≤ 0xFFF ∧ 0xFFF < (State.reset.setI 0xFF1).i.toNat + (15 : Reg).toNat ∧
    params.dataOob = .fault ∧ w.dataOob ≠ .fault := by decide

theorem witness_DumpThenLoadGivesRegistersBack :
    0x50 ≤ (State.reset.setI 0x050).i.toNat ∧ 0x50 ≤ (State.reset.setI 0xFF0).i.toNat ∧
    (State.reset.setI 0xFF0).i.toNat + (15 : Reg).toNat ≤ 0xFFF := by decide

/-- N = 0 with any index, the last index that draws, the first that faults; a covered pixel, set and unset. -/
theorem witness_DrawSpriteFlipsWhatItCovers :
    (0 : Nibble).toNat = 0 ∧ (State.reset.setI 0xFF1).i.toNat + (15 : Nibble).toNat - 1 ≤ 0xFFF ∧
    ((15 : Nibble).toNat ≠ 0 ∧ 0xFFF < (State.reset.setI 0xFF2).i.toNat + (15 : Nibble).toNat - 1) ∧ params.dataOob = .fault ∧
    State.reset.spriteCovers .wrap 63 31 5 2 31 ∧ Display.pixel State.reset.display 2 31 = false ∧
    Display.pixel (State.reset.display.set 31 4) 2 31 = true :=
  ⟨by decide, by decide, by decide, by decide, ⟨0, 3, by decide, by decide, by decide, by decide, by decide⟩, by decide, by decide⟩

theorem witness_BothEdgeModesFlipWhatTheyCover :
    let c : Params := { params with drawEdge := .clip, dataOob := .wrap }
    params.dataOob = .fault ∧ State.reset.i.toNat + (5 : Nibble).toNat - 1 ≤ 0xFFF ∧ c.dataOob ≠ .fault ∧
    State.reset.spriteCovers c.drawEdge 63 31 5 63 31 :=
  ⟨by decide, by decide, by decide, ⟨0, 0, by decide, by decide, by decide, by decide, by decide, by decide, by decide⟩⟩

theorem witness_DrawingTwiceRestoresTheDisplay :
    (0 : Reg) ≠ Reg.vf ∧ (14 : Reg) ≠ Reg.vf ∧ State.reset.i.toNat + (5 : Nibble).toNat - 1 ≤ 0xFFF := by decide

theorem witness_KeySkipsReadTheKey :
    let p : Params := { params with keyIndexOob := .lowNibble }
    ((regs [(0, 15)]).getV 0).toNat = (15 : Fin 16).val ∧ 15 < ((regs [(0, 16)]).getV 0).toNat ∧ params.keyIndexOob = .fault ∧
    p.keyIndexOob = .lowNibble ∧ ((regs [(0, 16)]).getV 0).toNat % 16 = (0 : Fin 16).val := by decide

theorem witness_WaitForKeyTakesTheLowestKey :
    let keys := State.reset.keys.set 15 true
    (∀ k : Fin 16, State.reset.keys[k] = false) ∧ keys[(15 : Fin 16)] = true ∧
    ∀ j : Fin 16, j.val < (15 : Fin 16).val → keys[j] = false := by decide

theorem witness_BlockedEngineWaitsUnchanged : (State.reset.withFetchWord 16 0xFF0A).blocked :=
  ⟨by decide, ⟨0xFF0A, 15, by decide, by decide⟩, by decide⟩

theorem witness_ParkedEngineStaysPut : (State.reset.withFetchWord 16 0x1200).parked :=
  ⟨by decide, 0x1200, 0x200, by decide, by decide, by decide⟩

theorem witness_ResetLeavesTheResetState : (79 : Nat) < 80 ∧ glyphRom[79]? = some 0x80#8 ∧ (80 : Nat) ≤ 80 := by decide

theorem witness_LoadCopiesTheProgram :
    (List.replicate 3584 (0xAA : Byte)).length ≤ 3584 ∧ 3584 < (List.replicate 3585 (0xAA : Byte)).length ∧
    0x200 + (List.replicate 3584 (0xAA : Byte)).length ≤ 0x1000 := by
  simp only [List.length_replicate]
  omega

theorem witness_TicksDecrementIfPositive_OtherHostOperations :
    State.reset.estate ≠ .uninitialized ∧ (State.reset.takeFault .stackOverflow).estate ≠ .uninitialized ∧ (15 : Fin 16) ≠ 14 := by
  decide

end Sys2Proof.Tests
end

section
/-! The memory family (spec/20_memory.md): what a fetch reads and when it faults. -/

namespace Sys2Proof.Machine

/-- Settles O7: past 0xFFF the fetch faults; below, the code is the two bytes at `pc`, the first the high byte. -/
theorem fetchReadsTwoBytesBigEndian : Obligations.FetchReadsTwoBytesBigEndian := by
  intro m pc
  constructor
  · exact fetch16_error m pc
  · intro h
    exact ⟨_, fetch16_ok m pc h, codeOfBytes_toNat _ _⟩

end Sys2Proof.Machine
end

section
/-! The control-flow family (spec/40_control_flow.md): the skips by the condition they test, and the jumps. -/

namespace Sys2Proof.Machine

/-! ### The skips -/

/-- The whole next state of a skip, by the proposition that its test decides. -/
theorem State.skipIf_eq_of_iff (s : State) {c : Bool} {P : Prop} [Decidable P] (h : c = true ↔ P) :
    s.skipIf c = { s with pc := s.pc + (if P then 4#16 else 2#16) } := by
  by_cases hP : P
  · rw [h.mpr hP, if_pos hP]
    rfl
  · rw [Bool.eq_false_iff.mpr (mt h.mp hP), if_neg hP]
    rfl

/-- Settles O28: each immediate skip tests what its rule states (R124, R125). -/
theorem immediateSkips : Obligations.ImmediateSkips := by
  intro x nn s
  constructor
  · rw [exec, execSeImm, s.skipIf_eq_of_iff beq_iff_eq]
  · rw [exec, execSneImm, s.skipIf_eq_of_iff bne_iff_ne]

/-- Settles O29: each register skip tests what its rule states (R126, R127). -/
theorem registerSkips : Obligations.RegisterSkips := by
  intro x y s
  constructor
  · rw [exec, execSeReg, s.skipIf_eq_of_iff beq_iff_eq]
  · rw [exec, execSneReg, s.skipIf_eq_of_iff bne_iff_ne]

/-! ### The frame -/

/-- A state agrees with itself, whatever may be written. -/
theorem State.frame_refl (s : State) (w : Writes) : s.frame s w where
  regs _ _ := rfl
  index _ := rfl
  stack _ := ⟨rfl, rfl⟩
  mem _ _ := rfl
  display _ := ⟨rfl, rfl⟩
  dt _ := rfl
  st _ := rfl
  draws _ := rfl
  keys := rfl
  estate := rfl
  faultKind := rfl
  faultPc := rfl

/-- A frame says nothing of `pc`, so setting it keeps every frame. -/
theorem State.frame.setPc {s t : State} {w : Writes} (h : s.frame t w) (a : Word) : s.frame (t.setPc a) w :=
  { h with }

/-! ### The jumps -/

/-- The target of a jump with offset is at most 0xFFF + 0xFF = 0x10FE, so the 16-bit sum is exact (R128). -/
theorem toNat_zext16_add_zext16 (a : Addr12) (b : Byte) : (zext16 a + zext16 b).toNat = a.toNat + b.toNat := by
  have ha : (zext16 a).toNat = a.toNat := BitVec.toNat_setWidth_of_le (by decide)
  have hb : (zext16 b).toNat = b.toNat := BitVec.toNat_setWidth_of_le (by decide)
  rw [BitVec.toNat_add_of_lt (by omega), ha, hb]

/-- Settles O30: both jumps only set `pc`, and the sum of the jump with offset is exact. -/
theorem jumpsSetPc : Obligations.JumpsSetPc := by
  intro nnn s
  constructor
  · rw [exec, execJp, State.setPc, BitVec.ofNat_toNat]
  · exact ⟨_, rfl, toNat_zext16_add_zext16 nnn (s.getV Reg.v0), (s.frame_refl {}).setPc _⟩

end Sys2Proof.Machine
end

section
/-! The register and arithmetic family (spec/41_alu.md): the immediate forms. -/

namespace Sys2Proof.Machine

/-- Writing a register that may be written keeps every frame. -/
theorem State.frame.setV {s t : State} {w : Writes} (h : s.frame t w) {x : Reg} (hx : x ∈ w.regs) (b : Byte) :
    s.frame (t.setV x b) w :=
  { h with
    regs := fun z hz => by
      have hzx : z ≠ x := fun e => hz (e ▸ hx)
      rw [State.getV_setV_ne t x z b hzx, h.regs z hz] }

/-- Writing `V[x]` and advancing writes nothing else. -/
theorem State.frame_setV_advance (s : State) (x : Reg) (b : Byte) : s.frame (s.setV x b).advance { regs := [x] } :=
  ((s.frame_refl _).setV (List.mem_singleton_self x) b).setPc _

/-- Settles O34: each immediate form writes `V[x]` and advances; the sum is that of bytes, so it wraps, and `VF` stands
in the frame like every other register (R151, R152). -/
theorem immediateForms : Obligations.ImmediateForms := by
  intro x nn s
  constructor
  · exact ⟨_, rfl, s.getV_setV_same x nn, rfl, s.frame_setV_advance x nn⟩
  · have sum : ((s.setV x (s.getV x + nn)).advance.getV x).toNat = ((s.getV x).toNat + nn.toNat) % 256 := by
      rw [State.advance_getV, State.getV_setV_same, BitVec.toNat_add]
    exact ⟨_, rfl, sum, rfl, s.frame_setV_advance x _⟩

end Sys2Proof.Machine
end

section
/-! The index family (spec/42_index_memory.md): the forms that set the whole index. -/

namespace Sys2Proof.Machine

/-- Setting an index that may be written keeps every frame. -/
theorem State.frame.setI {s t : State} {w : Writes} (h : s.frame t w) (hi : w.index = true) (a : Word) :
    s.frame (t.setI a) w :=
  { h with index := fun hn => absurd hi (Bool.eq_false_iff.mp hn) }

/-- Setting the index and advancing writes nothing else. -/
theorem State.frame_setI_advance (s : State) (a : Word) : s.frame (s.setI a).advance { index := true } :=
  ((s.frame_refl _).setI rfl a).setPc _

/-- Five times a byte is at most 255 * 5 = 1275, so the 16-bit product is exact (R183). -/
theorem toNat_zext16_mul_five (b : Byte) : (zext16 b * 5#16).toNat = b.toNat * 5 := by
  have hb : (zext16 b).toNat = b.toNat := BitVec.toNat_setWidth_of_le (by decide)
  have five : (5#16).toNat = 5 := rfl
  have bound : (zext16 b).toNat * (5#16).toNat < 2 ^ 16 := by rw [hb, five]; omega
  rw [BitVec.toNat_mul_of_lt bound, hb, five]

/-- Settles O40: an immediate of 12 bits and five times a byte both fit the index whole (R181, R183). -/
theorem indexIsSetWhole : Obligations.IndexIsSetWhole := by
  constructor
  · intro nnn s
    have whole : (zext16 nnn).toNat = nnn.toNat := BitVec.toNat_setWidth_of_le (by decide)
    exact ⟨_, rfl, whole, rfl, s.frame_setI_advance _⟩
  · intro x s
    exact ⟨_, rfl, toNat_zext16_mul_five (s.getV x), rfl, s.frame_setI_advance _⟩

end Sys2Proof.Machine
end

section
/-! The display family (spec/43_display.md): clear-screen. -/

namespace Sys2Proof.Machine

/-- Replacing a display that may be written keeps every frame. -/
theorem State.frame.redraw {s t : State} {w : Writes} (h : s.frame t w) (hd : w.display = true) (d : Display) :
    s.frame (t.redraw d) w :=
  { h with display := fun hn => absurd hd (Bool.eq_false_iff.mp hn) }

/-- Replacing the display and advancing writes nothing else. -/
theorem State.frame_redraw_advance (s : State) (d : Display) : s.frame (s.redraw d).advance { display := true } :=
  ((s.frame_refl _).redraw rfl d).setPc _

/-- Settles O46: clear-screen redraws with the cleared display, of which every pixel reads unset (R211). -/
theorem clearScreenClearsEveryPixel : Obligations.ClearScreenClearsEveryPixel := by
  intro s
  exact ⟨(s.redraw Display.clear).advance, rfl, Display.pixel_clear, rfl, rfl, s.frame_redraw_advance Display.clear⟩

end Sys2Proof.Machine
end

section
/-! The key and timer family (spec/44_timers_input.md): the timer read and the timer writes. -/

namespace Sys2Proof.Machine

/-- Writing a delay timer that may be written keeps every frame. -/
theorem State.frame.setDt {s t : State} {w : Writes} (h : s.frame t w) (hd : w.dt = true) (b : Byte) :
    s.frame (t.setDt b) w :=
  { h with dt := fun hn => absurd hd (Bool.eq_false_iff.mp hn) }

/-- Writing a sound timer that may be written keeps every frame. -/
theorem State.frame.setSt {s t : State} {w : Writes} (h : s.frame t w) (hs : w.st = true) (b : Byte) :
    s.frame (t.setSt b) w :=
  { h with st := fun hn => absurd hs (Bool.eq_false_iff.mp hn) }

/-- Writing `DT` and advancing writes nothing else. -/
theorem State.frame_setDt_advance (s : State) (b : Byte) : s.frame (s.setDt b).advance { dt := true } :=
  ((s.frame_refl _).setDt rfl b).setPc _

/-- Writing `ST` and advancing writes nothing else. -/
theorem State.frame_setSt_advance (s : State) (b : Byte) : s.frame (s.setSt b).advance { st := true } :=
  ((s.frame_refl _).setSt rfl b).setPc _

/-- Settles O51: each form moves one whole byte between `V[x]` and a timer and advances; the timers it does not write
stand in its frame, so no step decrements one (R232, R234, R235). -/
theorem timerInstructionsMoveWholeValues : Obligations.TimerInstructionsMoveWholeValues := by
  intro x s
  refine ⟨?read, ?writeDelay, ?writeSound⟩
  case read => exact ⟨_, rfl, s.getV_setV_same x s.dt, rfl, s.frame_setV_advance x s.dt⟩
  case writeDelay => exact ⟨_, rfl, rfl, rfl, s.frame_setDt_advance (s.getV x)⟩
  case writeSound => exact ⟨_, rfl, rfl, rfl, s.frame_setSt_advance (s.getV x)⟩

end Sys2Proof.Machine
end

section
/-! The exceptions family (spec/60_exceptions.md): a step in Faulted. -/

namespace Sys2Proof.Machine

/-- In Faulted the skeleton of a step answers the recorded fault before it fetches, whatever the decoder and the
instructions' meanings are (R264). -/
theorem stepOver_faulted (dec : Code → Except Reject Instr) (ex : Instr → State → Result) {s : State}
    (h : s.estate = .faulted) : stepOver dec ex s = .fault (.engineFaulted s.faultKind) := by
  rw [stepOver, h]

/-- Settles O14: the step stops at the recorded fault, which the transaction returns with the state it was given. -/
theorem faultedStepFailsWithTheSameFault : Obligations.FaultedStepFailsWithTheSameFault := by
  intro s h
  have stop : step s = .fault (.engineFaulted s.faultKind) := stepOver_faulted decode exec h
  exact ⟨stop, by rw [transact, stop]⟩

end Sys2Proof.Machine
end

section
/-! The encoding family (spec/30_encoding.md): the decoder is the opcode map. A code decodes to an instruction exactly when
it matches a row, and the instruction is the row's with the code's fields; every statement about codes follows. -/

namespace Sys2Proof

/-! ### Fields and masks -/

/-- A field moved back to its place is the code under the field's mask. -/
theorem zext16_extractLsb'_shiftLeft (c : Code) {lo w : Nat} {M : Code}
    (hM : ∀ k, k < 16 → M.getLsbD k = decide (lo ≤ k ∧ k < lo + w)) : zext16 (c.extractLsb' lo w) <<< lo = c &&& M := by
  apply BitVec.eq_of_getLsbD_eq
  intro k hk
  rw [BitVec.getLsbD_and, hM k hk]
  by_cases hlo : lo ≤ k
  · have hbit : lo + (k - lo) = k := by omega
    have hw : k - lo < w ↔ k < lo + w := by omega
    simp [hk, hlo, hbit, hw, Bool.and_comm]
  · simp [hlo]

/-- A lowest field is the code under the field's mask. -/
theorem zext16_extractLsb' (c : Code) {w : Nat} {M : Code}
    (hM : ∀ k, k < 16 → M.getLsbD k = decide (0 ≤ k ∧ k < 0 + w)) : zext16 (c.extractLsb' 0 w) = c &&& M := by
  rw [← zext16_extractLsb'_shiftLeft c hM, BitVec.shiftLeft_zero]

/-- Codes agree under a field's mask exactly when they have the same field. -/
theorem and_fieldMask_iff (c d : Code) {lo w : Nat} {M : Code}
    (hM : ∀ k, k < 16 → M.getLsbD k = decide (lo ≤ k ∧ k < lo + w)) (hw : lo + w ≤ 16) :
    c &&& M = d &&& M ↔ c.extractLsb' lo w = d.extractLsb' lo w := by
  constructor
  · intro h
    apply BitVec.eq_of_getLsbD_eq
    intro k hk
    have hbit := congrArg (BitVec.getLsbD · (lo + k)) h
    simpa [hM (lo + k) (by omega), hk] using hbit
  · intro h
    rw [← zext16_extractLsb'_shiftLeft c hM, h, zext16_extractLsb'_shiftLeft d hM]

/-- Codes agree under two masks together exactly when they agree under each. -/
theorem and_or_eq_iff (c d A B : Code) : c &&& (A ||| B) = d &&& (A ||| B) ↔ c &&& A = d &&& A ∧ c &&& B = d &&& B := by
  constructor
  · intro h
    have under (M : Code) (hM : (A ||| B) &&& M = M) : c &&& M = d &&& M := by
      rw [← hM, ← BitVec.and_assoc, h, BitVec.and_assoc]
    constructor
    · exact under A (by ext k hk; cases h : A[k] <;> simp [h])
    · exact under B (by ext k hk; cases h : B[k] <;> simp [h])
  · rintro ⟨hA, hB⟩
    rw [BitVec.and_or_distrib_left, BitVec.and_or_distrib_left, hA, hB]

/-! ### The keys of the rows -/

/-- The mask of a format: its key, the bits that no operand uses (R95). -/
def Format.keyMask : Format → Code
  | .bare => 0xFFFF#16
  | .nnn | .xnn | .xyn => 0xF000#16
  | .xy => 0xF00F#16
  | .x => 0xF0FF#16

/-- Two codes have the same key in a format: the op, and the fields that no operand uses. -/
def Format.sameKey (c d : Code) : Format → Prop
  | .bare => c = d
  | .nnn | .xnn | .xyn => Code.op c = Code.op d
  | .xy => Code.op c = Code.op d ∧ Code.n c = Code.n d
  | .x => Code.op c = Code.op d ∧ Code.nn c = Code.nn d

theorem Format.and_keyMask_iff (f : Format) (c d : Code) : c &&& f.keyMask = d &&& f.keyMask ↔ f.sameKey c d := by
  have op : c &&& 0xF000#16 = d &&& 0xF000#16 ↔ Code.op c = Code.op d := and_fieldMask_iff c d (by decide) (by decide)
  have n : c &&& 0x000F#16 = d &&& 0x000F#16 ↔ Code.n c = Code.n d := and_fieldMask_iff c d (by decide) (by decide)
  have nn : c &&& 0x00FF#16 = d &&& 0x00FF#16 ↔ Code.nn c = Code.nn d := and_fieldMask_iff c d (by decide) (by decide)
  cases f with
  | bare =>
    have whole (e : Code) : e &&& 0xFFFF#16 = e := BitVec.and_allOnes
    change c &&& 0xFFFF#16 = d &&& 0xFFFF#16 ↔ c = d
    rw [whole, whole]
  | nnn | xnn | xyn => exact op
  | xy => exact (and_or_eq_iff c d 0xF000#16 0x000F#16).trans (and_congr op n)
  | x => exact (and_or_eq_iff c d 0xF000#16 0x00FF#16).trans (and_congr op nn)

/-! ### The rows of the map -/

/-- The instruction of a row whose operands are the fields of a code (R95). -/
def Opcode.instr (c : Code) : Opcode → Instr
  | .cls => .cls
  | .ret => .ret
  | .jp => .jp (Code.nnn c)
  | .call => .call (Code.nnn c)
  | .seImm => .seImm (Code.x c) (Code.nn c)
  | .sneImm => .sneImm (Code.x c) (Code.nn c)
  | .seReg => .seReg (Code.x c) (Code.y c)
  | .ldImm => .ldImm (Code.x c) (Code.nn c)
  | .addImm => .addImm (Code.x c) (Code.nn c)
  | .ldReg => .ldReg (Code.x c) (Code.y c)
  | .orReg => .orReg (Code.x c) (Code.y c)
  | .andReg => .andReg (Code.x c) (Code.y c)
  | .xorReg => .xorReg (Code.x c) (Code.y c)
  | .addReg => .addReg (Code.x c) (Code.y c)
  | .subReg => .subReg (Code.x c) (Code.y c)
  | .shr => .shr (Code.x c) (Code.y c)
  | .subnReg => .subnReg (Code.x c) (Code.y c)
  | .shl => .shl (Code.x c) (Code.y c)
  | .sneReg => .sneReg (Code.x c) (Code.y c)
  | .ldI => .ldI (Code.nnn c)
  | .jpV0 => .jpV0 (Code.nnn c)
  | .rnd => .rnd (Code.x c) (Code.nn c)
  | .drw => .drw (Code.x c) (Code.y c) (Code.n c)
  | .skp => .skp (Code.x c)
  | .sknp => .sknp (Code.x c)
  | .ldVxDt => .ldVxDt (Code.x c)
  | .ldVxK => .ldVxK (Code.x c)
  | .ldDtVx => .ldDtVx (Code.x c)
  | .ldStVx => .ldStVx (Code.x c)
  | .addIVx => .addIVx (Code.x c)
  | .ldFVx => .ldFVx (Code.x c)
  | .ldBVx => .ldBVx (Code.x c)
  | .ldIVx => .ldIVx (Code.x c)
  | .ldVxI => .ldVxI (Code.x c)

@[simp] theorem Opcode.opcode_instr (c : Code) (o : Opcode) : (o.instr c).opcode = o := by cases o <;> rfl

/-- The format that decides what a row's key is, under a value of `DECODE_5_9_IGNORE_N`: when it is set, 5XYN and 9XYN
have no key but the op (D10). -/
def Opcode.keyFormat (ignoreN : Bool) : Opcode → Format
  | .seReg | .sneReg => if ignoreN then .xyn else .xy
  | o => o.format

theorem Opcode.keyMask_false (o : Opcode) : (o.keyFormat false).keyMask = o.maskWord := by cases o <;> rfl

theorem Opcode.keyMask_true (o : Opcode) :
    (o.keyFormat true).keyMask = if o = .seReg ∨ o = .sneReg then 0xF000#16 else o.maskWord := by cases o <;> rfl

/-- A code matches a row exactly when it has the row's key (R95). -/
theorem Opcode.and_keyMask_iff (ignoreN : Bool) (o : Opcode) (c : Code) :
    c &&& (o.keyFormat ignoreN).keyMask = o.matchWord ↔ (o.keyFormat ignoreN).sameKey c o.matchWord := by
  have inMask : o.matchWord &&& (o.keyFormat ignoreN).keyMask = o.matchWord := by
    cases ignoreN <;> cases o <;> decide
  rw [← Format.and_keyMask_iff, inMask]

/-! ### The decoder is the map -/

/-- A code with a row's key decodes to the row's instruction. -/
theorem decodeWith_of_sameKey {ignoreN : Bool} {c : Code} {o : Opcode} (h : (o.keyFormat ignoreN).sameKey c o.matchWord) :
    decodeWith ignoreN c = .ok (o.instr c) := by
  cases o
  case cls | ret =>
    have whole : c = Opcode.matchWord _ := h
    rw [whole]; rfl
  case jp | call | ldI | jpV0 | seImm | sneImm | ldImm | addImm | rnd | drw =>
    have hop : Code.op c = Code.op (Opcode.matchWord _) := h
    rw [decodeWith, hop]; rfl
  case seReg | sneReg =>
    cases ignoreN
    · obtain ⟨hop, hn⟩ : Code.op c = Code.op (Opcode.matchWord _) ∧ Code.n c = Code.n (Opcode.matchWord _) := h
      rw [decodeWith, hop]
      change decodeRegSkip false c _ = _
      rw [decodeRegSkip, hn]; rfl
    · have hop : Code.op c = Code.op (Opcode.matchWord _) := h
      rw [decodeWith, hop]; rfl
  case ldReg | orReg | andReg | xorReg | addReg | subReg | shr | subnReg | shl =>
    obtain ⟨hop, hn⟩ : Code.op c = Code.op (Opcode.matchWord _) ∧ Code.n c = Code.n (Opcode.matchWord _) := h
    rw [decodeWith, hop]
    change decodeFamily8 c = _
    rw [decodeFamily8, hn]; rfl
  case skp | sknp =>
    obtain ⟨hop, hnn⟩ : Code.op c = Code.op (Opcode.matchWord _) ∧ Code.nn c = Code.nn (Opcode.matchWord _) := h
    rw [decodeWith, hop]
    change decodeFamilyE c = _
    rw [decodeFamilyE, hnn]; rfl
  case ldVxDt | ldVxK | ldDtVx | ldStVx | addIVx | ldFVx | ldBVx | ldIVx | ldVxI =>
    obtain ⟨hop, hnn⟩ : Code.op c = Code.op (Opcode.matchWord _) ∧ Code.nn c = Code.nn (Opcode.matchWord _) := h
    rw [decodeWith, hop]
    change decodeFamilyF c = _
    rw [decodeFamilyF, hnn]; rfl

/-- The instruction `i` is that of a row whose key `c` has. -/
def Code.hasRow (ignoreN : Bool) (c : Code) (i : Instr) : Prop :=
  ∃ o : Opcode, (o.keyFormat ignoreN).sameKey c o.matchWord ∧ i = o.instr c

theorem row_of_decodeFamily0 (ignoreN : Bool) {c : Code} {i : Instr} (h : decodeFamily0 c = .ok i) :
    Code.hasRow ignoreN c i := by
  rw [decodeFamily0] at h
  split at h
  case isTrue hc => cases h; exact ⟨.cls, hc, rfl⟩
  split at h
  case isTrue hc => cases h; exact ⟨.ret, hc, rfl⟩
  case isFalse => cases h

theorem row_of_decodeRegSkip {ignoreN : Bool} {c : Code} {i : Instr} (o : Opcode) (ho : o = .seReg ∨ o = .sneReg)
    (hop : Code.op c = Code.op o.matchWord) (h : decodeRegSkip ignoreN c (o.instr c) = .ok i) : Code.hasRow ignoreN c i := by
  have key : o.keyFormat ignoreN = if ignoreN then .xyn else .xy := by obtain rfl | rfl := ho <;> rfl
  have noN : Code.n o.matchWord = 0#4 := by obtain rfl | rfl := ho <;> rfl
  rw [decodeRegSkip] at h
  split at h
  case isTrue hn =>
    cases h
    refine ⟨o, ?_, rfl⟩
    rw [key]
    cases ignoreN with
    | true => exact hop
    | false => exact And.intro hop (by simpa [noN] using hn)
  case isFalse => cases h

theorem row_of_decodeFamily8 (ignoreN : Bool) {c : Code} {i : Instr} (hop : Code.op c = 0x8#4)
    (h : decodeFamily8 c = .ok i) : Code.hasRow ignoreN c i := by
  rw [decodeFamily8] at h
  split at h
  case h_1 hn => cases h; exact ⟨.ldReg, And.intro hop (BitVec.eq_of_toNat_eq hn), rfl⟩
  case h_2 hn => cases h; exact ⟨.orReg, And.intro hop (BitVec.eq_of_toNat_eq hn), rfl⟩
  case h_3 hn => cases h; exact ⟨.andReg, And.intro hop (BitVec.eq_of_toNat_eq hn), rfl⟩
  case h_4 hn => cases h; exact ⟨.xorReg, And.intro hop (BitVec.eq_of_toNat_eq hn), rfl⟩
  case h_5 hn => cases h; exact ⟨.addReg, And.intro hop (BitVec.eq_of_toNat_eq hn), rfl⟩
  case h_6 hn => cases h; exact ⟨.subReg, And.intro hop (BitVec.eq_of_toNat_eq hn), rfl⟩
  case h_7 hn => cases h; exact ⟨.shr, And.intro hop (BitVec.eq_of_toNat_eq hn), rfl⟩
  case h_8 hn => cases h; exact ⟨.subnReg, And.intro hop (BitVec.eq_of_toNat_eq hn), rfl⟩
  case h_9 hn => cases h; exact ⟨.shl, And.intro hop (BitVec.eq_of_toNat_eq hn), rfl⟩
  case h_10 => cases h

theorem row_of_decodeFamilyE (ignoreN : Bool) {c : Code} {i : Instr} (hop : Code.op c = 0xE#4)
    (h : decodeFamilyE c = .ok i) : Code.hasRow ignoreN c i := by
  rw [decodeFamilyE] at h
  split at h
  case h_1 hnn => cases h; exact ⟨.skp, And.intro hop (BitVec.eq_of_toNat_eq hnn), rfl⟩
  case h_2 hnn => cases h; exact ⟨.sknp, And.intro hop (BitVec.eq_of_toNat_eq hnn), rfl⟩
  case h_3 => cases h

theorem row_of_decodeFamilyF (ignoreN : Bool) {c : Code} {i : Instr} (hop : Code.op c = 0xF#4)
    (h : decodeFamilyF c = .ok i) : Code.hasRow ignoreN c i := by
  rw [decodeFamilyF] at h
  split at h
  case h_1 hnn => cases h; exact ⟨.ldVxDt, And.intro hop (BitVec.eq_of_toNat_eq hnn), rfl⟩
  case h_2 hnn => cases h; exact ⟨.ldVxK, And.intro hop (BitVec.eq_of_toNat_eq hnn), rfl⟩
  case h_3 hnn => cases h; exact ⟨.ldDtVx, And.intro hop (BitVec.eq_of_toNat_eq hnn), rfl⟩
  case h_4 hnn => cases h; exact ⟨.ldStVx, And.intro hop (BitVec.eq_of_toNat_eq hnn), rfl⟩
  case h_5 hnn => cases h; exact ⟨.addIVx, And.intro hop (BitVec.eq_of_toNat_eq hnn), rfl⟩
  case h_6 hnn => cases h; exact ⟨.ldFVx, And.intro hop (BitVec.eq_of_toNat_eq hnn), rfl⟩
  case h_7 hnn => cases h; exact ⟨.ldBVx, And.intro hop (BitVec.eq_of_toNat_eq hnn), rfl⟩
  case h_8 hnn => cases h; exact ⟨.ldIVx, And.intro hop (BitVec.eq_of_toNat_eq hnn), rfl⟩
  case h_9 hnn => cases h; exact ⟨.ldVxI, And.intro hop (BitVec.eq_of_toNat_eq hnn), rfl⟩
  case h_10 => cases h

/-- A code decodes to an instruction exactly when it has the key of the instruction's row and the instruction's operands
are its fields (R94, R95). -/
theorem decodeWith_eq_ok_iff (ignoreN : Bool) (c : Code) (i : Instr) :
    decodeWith ignoreN c = .ok i ↔ Code.hasRow ignoreN c i := by
  constructor
  case mpr =>
    rintro ⟨o, key, rfl⟩
    exact decodeWith_of_sameKey key
  intro h
  rw [decodeWith] at h
  split at h
  case h_1 hop => exact row_of_decodeFamily0 ignoreN h
  case h_2 hop => cases h; exact ⟨.jp, BitVec.eq_of_toNat_eq hop, rfl⟩
  case h_3 hop => cases h; exact ⟨.call, BitVec.eq_of_toNat_eq hop, rfl⟩
  case h_4 hop => cases h; exact ⟨.seImm, BitVec.eq_of_toNat_eq hop, rfl⟩
  case h_5 hop => cases h; exact ⟨.sneImm, BitVec.eq_of_toNat_eq hop, rfl⟩
  case h_6 hop => exact row_of_decodeRegSkip .seReg (.inl rfl) (BitVec.eq_of_toNat_eq hop) h
  case h_7 hop => cases h; exact ⟨.ldImm, BitVec.eq_of_toNat_eq hop, rfl⟩
  case h_8 hop => cases h; exact ⟨.addImm, BitVec.eq_of_toNat_eq hop, rfl⟩
  case h_9 hop => exact row_of_decodeFamily8 ignoreN (BitVec.eq_of_toNat_eq hop) h
  case h_10 hop => exact row_of_decodeRegSkip .sneReg (.inr rfl) (BitVec.eq_of_toNat_eq hop) h
  case h_11 hop => cases h; exact ⟨.ldI, BitVec.eq_of_toNat_eq hop, rfl⟩
  case h_12 hop => cases h; exact ⟨.jpV0, BitVec.eq_of_toNat_eq hop, rfl⟩
  case h_13 hop => cases h; exact ⟨.rnd, BitVec.eq_of_toNat_eq hop, rfl⟩
  case h_14 hop => cases h; exact ⟨.drw, BitVec.eq_of_toNat_eq hop, rfl⟩
  case h_15 hop => exact row_of_decodeFamilyE ignoreN (BitVec.eq_of_toNat_eq hop) h
  case h_16 hop => exact row_of_decodeFamilyF ignoreN (BitVec.eq_of_toNat_eq hop) h
  case h_17 => cases h

/-! ### Encoding the instruction of a row -/

/-- The operand bits of a row's instruction are the code's bits outside the row's mask. -/
theorem operandBits_instr (c : Code) (o : Opcode) : (o.instr c).operandBits = c &&& ~~~o.maskWord := by
  have nnn : zext16 (Code.nnn c) = c &&& 0x0FFF#16 := zext16_extractLsb' c (by decide)
  have x : zext16 (Code.x c) <<< 8 = c &&& 0x0F00#16 := zext16_extractLsb'_shiftLeft c (by decide)
  have y : zext16 (Code.y c) <<< 4 = c &&& 0x00F0#16 := zext16_extractLsb'_shiftLeft c (by decide)
  have n : zext16 (Code.n c) = c &&& 0x000F#16 := zext16_extractLsb' c (by decide)
  have nn : zext16 (Code.nn c) = c &&& 0x00FF#16 := zext16_extractLsb' c (by decide)
  have xnn : zext16 (Code.x c) <<< 8 ||| zext16 (Code.nn c) = c &&& 0x0FFF#16 := by
    rw [x, nn, ← BitVec.and_or_distrib_left]; rfl
  have xy : zext16 (Code.x c) <<< 8 ||| zext16 (Code.y c) <<< 4 = c &&& 0x0FF0#16 := by
    rw [x, y, ← BitVec.and_or_distrib_left]; rfl
  have xyn : zext16 (Code.x c) <<< 8 ||| zext16 (Code.y c) <<< 4 ||| zext16 (Code.n c) = c &&& 0x0FFF#16 := by
    rw [xy, n, ← BitVec.and_or_distrib_left]; rfl
  cases o
  case cls | ret => exact BitVec.and_zero.symm
  case jp | call | ldI | jpV0 => exact nnn
  case seImm | sneImm | ldImm | addImm | rnd => exact xnn
  case seReg | ldReg | orReg | andReg | xorReg | addReg | subReg | shr | subnReg | shl | sneReg => exact xy
  case drw => exact xyn
  case skp | sknp | ldVxDt | ldVxK | ldDtVx | ldStVx | addIVx | ldFVx | ldBVx | ldIVx | ldVxI => exact x

/-- Encoding a matched row's instruction gives the code back: its bits in the mask are the match, the others operands. -/
theorem encode_instr_of_match {c : Code} {o : Opcode} (h : c &&& o.maskWord = o.matchWord) : encode (o.instr c) = c := by
  rw [encode, Opcode.opcode_instr, operandBits_instr, ← h, ← BitVec.and_or_distrib_left, BitVec.or_not_self,
    BitVec.and_allOnes]

/-- A match holds 0 in every field its row's operands take (R95). -/
theorem Opcode.x_matchWord (o : Opcode) : Code.x o.matchWord = 0#4 := by cases o <;> rfl
theorem Opcode.nnn_matchWord {o : Opcode} (h : o.format = .nnn ∨ o.format = .xnn ∨ o.format = .xyn) :
    Code.nnn o.matchWord = 0#12 := by
  cases o <;> simp [Opcode.format] at h <;> rfl
theorem Opcode.nn_matchWord {o : Opcode} (h : o.format = .xnn ∨ o.format = .xyn) : Code.nn o.matchWord = 0#8 := by
  cases o <;> simp [Opcode.format] at h <;> rfl
theorem Opcode.y_matchWord {o : Opcode} (h : o.format = .xy ∨ o.format = .xyn) : Code.y o.matchWord = 0#4 := by
  cases o <;> simp [Opcode.format] at h <;> rfl
theorem Opcode.n_matchWord {o : Opcode} (h : o.format = .xnn ∨ o.format = .xyn) : Code.n o.matchWord = 0#4 := by
  cases o <;> simp [Opcode.format] at h <;> rfl

/-- The fields of an instruction's code are its operands. -/
theorem instr_encode (i : Instr) : i.opcode.instr (encode i) = i := by
  cases i <;> simp [Instr.opcode, Opcode.instr, encode, Instr.operandBits, Opcode.format, Opcode.x_matchWord,
    Opcode.nnn_matchWord, Opcode.nn_matchWord, Opcode.y_matchWord, Opcode.n_matchWord]

/-- The code of an instruction matches its row (R102). -/
theorem encode_matches (i : Instr) : encode i &&& i.opcode.maskWord = i.opcode.matchWord := by
  have operands : i.operandBits = encode i &&& ~~~i.opcode.maskWord := by rw [← operandBits_instr, instr_encode]
  have clear : i.operandBits &&& i.opcode.maskWord = 0#16 := by
    rw [operands, BitVec.and_assoc, BitVec.not_and_self]
    exact BitVec.and_zero
  exact Laws.EncodeHeader.or_and_of_clear _ _ _ (Laws.EncodeHeader.match_and_mask _) clear

/-! ### The statements -/

/-- At this model's parameters a code has a row exactly when it matches one (R94, R95). -/
theorem hasRow_false_iff (c : Code) (i : Instr) :
    Code.hasRow false c i ↔ ∃ o : Opcode, c &&& o.maskWord = o.matchWord ∧ i = o.instr c := by
  simp only [Code.hasRow, ← Opcode.and_keyMask_iff, Opcode.keyMask_false]

theorem decode_encode (i : Instr) : decode (encode i) = .ok i := by
  exact (decodeWith_eq_ok_iff false _ _).mpr
    ((hasRow_false_iff _ _).mpr ⟨i.opcode, encode_matches i, (instr_encode i).symm⟩)

/-- Settles O2: the code of an instruction matches its row, whose fields are the operands; the two bytes are the code. -/
theorem decodeInvertsEncode : Obligations.DecodeInvertsEncode := by
  intro i rest _
  have bytes : decodeBytes (encodeBytes i ++ rest) = .ok (i, rest) := by
    simp only [encodeBytes, List.cons_append, List.nil_append, decodeBytes, codeOfBytes_extract, decode_encode]
  exact ⟨decode_encode i, bytes⟩

/-- Settles O3: a code that decodes matches a row, and its other bits are the operands. -/
theorem encodeInvertsDecode : Obligations.EncodeInvertsDecode := by
  intro c i h
  obtain ⟨o, key, rfl⟩ := (hasRow_false_iff c i).mp ((decodeWith_eq_ok_iff false c i).mp h)
  exact encode_instr_of_match key

/-- A code decodes to an instruction of a row exactly when it matches the row, under either value of
`DECODE_5_9_IGNORE_N`. -/
theorem decodes_to_row_iff (ignoreN : Bool) (c : Code) (o : Opcode) :
    (∃ i, decodeWith ignoreN c = .ok i ∧ i.opcode = o) ↔ c &&& (o.keyFormat ignoreN).keyMask = o.matchWord := by
  rw [Opcode.and_keyMask_iff]
  constructor
  · rintro ⟨i, h, rfl⟩
    obtain ⟨o, key, rfl⟩ := (decodeWith_eq_ok_iff ignoreN c i).mp h
    rwa [Opcode.opcode_instr]
  · intro key
    exact ⟨o.instr c, decodeWith_of_sameKey key, Opcode.opcode_instr c o⟩

/-- Settles O4: the decoder is the map, under both values of `DECODE_5_9_IGNORE_N`. -/
theorem decodeFollowsOpcodeMap : Obligations.DecodeFollowsOpcodeMap := by
  constructor
  · intro c o
    rw [decodes_to_row_iff, Opcode.keyMask_false]
  · intro c o
    rw [decodes_to_row_iff, Opcode.keyMask_true]

/-! ### The unknown codes (R97) -/

theorem decodeFamily0_unknown (c : Code) :
    decodeFamily0 c = .error (.unknownOpcode c) ↔ c ≠ 0x00E0#16 ∧ c ≠ 0x00EE#16 := by
  rw [decodeFamily0]
  split
  · simp_all
  · split <;> simp_all

theorem decodeRegSkip_unknown (ignoreN : Bool) (c : Code) (i : Instr) :
    decodeRegSkip ignoreN c i = .error (.unknownOpcode c) ↔ Code.n c ≠ 0#4 ∧ ignoreN = false := by
  rw [decodeRegSkip]
  cases ignoreN <;> simp

theorem decodeFamily8_unknown (c : Code) :
    decodeFamily8 c = .error (.unknownOpcode c) ↔ Code.n c ∈ [0x8#4, 0x9#4, 0xA#4, 0xB#4, 0xC#4, 0xD#4, 0xF#4] := by
  rw [decodeFamily8]
  split <;> simp_all [← BitVec.toNat_inj]
  omega

theorem decodeFamilyE_unknown (c : Code) :
    decodeFamilyE c = .error (.unknownOpcode c) ↔ Code.nn c ≠ 0x9E#8 ∧ Code.nn c ≠ 0xA1#8 := by
  rw [decodeFamilyE]
  split <;> simp_all [← BitVec.toNat_inj]

theorem decodeFamilyF_unknown (c : Code) :
    decodeFamilyF c = .error (.unknownOpcode c) ↔
      Code.nn c ∉ [0x07#8, 0x0A#8, 0x15#8, 0x18#8, 0x1E#8, 0x29#8, 0x33#8, 0x55#8, 0x65#8] := by
  rw [decodeFamilyF]
  split <;> simp_all [← BitVec.toNat_inj]

/-- Settles O5: the family decides which codes are unknown. -/
theorem unknownCodesAreThoseOfTheTable : Obligations.UnknownCodesAreThoseOfTheTable := by
  refine ⟨fun ignoreN c => ?_, fun c => rfl⟩
  rw [decodeWith]
  split
  case h_17 =>
    have bound := (Code.op c).isLt
    simp only [imp_false] at *
    omega
  all_goals
    rename_i hop
    simp [← @BitVec.toNat_inj 4 (Code.op c), hop, decodeFamily0_unknown, decodeRegSkip_unknown, decodeFamily8_unknown,
      decodeFamilyE_unknown, decodeFamilyF_unknown]

/-- Settles O1: each word has the key of its row, or of none. -/
theorem sampleWordsDecode : Obligations.SampleWordsDecode := by
  rw [Obligations.SampleWordsDecode]; decide

end Sys2Proof
end

section
/-! What an instruction can do, said once for all 34: the faults it may raise, what it may write, where it leaves `pc` and
what it stores. The statements over all instructions and all steps are read off it. -/

namespace Sys2Proof.Machine

/-! ### More frames -/

/-- Writing `VF` keeps every frame that lets it be written. -/
theorem State.frame.setFlag {s t : State} {w : Writes} (h : s.frame t w) (hf : Reg.vf ∈ w.regs) (c : Bool) :
    s.frame (t.setFlag c) w :=
  h.setV hf (flagByte c)

/-- A result and a flag keep every frame that lets both registers be written. -/
theorem State.frame.setVFlag {s t : State} {w : Writes} (h : s.frame t w) {x : Reg} (hx : x ∈ w.regs)
    (hf : Reg.vf ∈ w.regs) (r : Byte) (c : Bool) : s.frame (t.setVFlag x r c) w :=
  (h.setV hx r).setFlag hf c

/-- The skip pattern only sets `pc`. -/
theorem State.frame.skipIf {s t : State} {w : Writes} (h : s.frame t w) (c : Bool) : s.frame (t.skipIf c) w := by
  cases c
  · exact h.setPc _
  · exact h.setPc _

/-- A draw keeps every frame that lets the counter be written. -/
theorem State.frame.drawRandom {s t : State} {w : Writes} (h : s.frame t w) (hd : w.draws = true) :
    s.frame t.drawRandom.2 w :=
  { h with draws := fun hn => absurd hd (Bool.eq_false_iff.mp hn) }

/-- Replacing the memory keeps every frame in whose stored range the two memories differ. -/
theorem State.frame.setMem {s t : State} {w : Writes} (h : s.frame t w) {m : Memory}
    (hm : ∀ a, ¬(w.storeAt ≤ a ∧ a < w.storeAt + w.storeLen) → m.read a = s.mem.read a) : s.frame (t.setMem m) w :=
  { h with mem := hm }

/-- A result, a flag and the advance write nothing else. -/
theorem State.frame_setVFlag_advance (s : State) (x : Reg) (r : Byte) (c : Bool) :
    s.frame (s.setVFlag x r c).advance { regs := [x, Reg.vf] } :=
  ((s.frame_refl _).setVFlag (by simp) (by simp) r c).setPc _

/-- A draw into a register and the advance write nothing else. -/
theorem State.frame_rnd_advance (s : State) (x : Reg) (b : Byte) :
    s.frame (s.drawRandom.2.setV x b).advance { regs := [x], draws := true } :=
  (((s.frame_refl _).drawRandom rfl).setV (List.mem_singleton_self x) b).setPc _

end Sys2Proof.Machine
end

section
/-! The tables: what each of the 34 instructions may raise, write and store. -/

namespace Sys2Proof

open Machine

/-- The faults an instruction may raise (R265). -/
def Instr.faults : Instr → List FaultKind
  | .ret => [.stackUnderflow]
  | .call _ => [.stackOverflow]
  | .skp _ | .sknp _ => [.keyIndexOutOfRange]
  | .drw _ _ _ | .ldVxI _ => [.memoryOutOfBounds]
  | .ldBVx _ | .ldIVx _ => [.memoryOutOfBounds, .glyphRegionWrite]
  | _ => []

/-- What an instruction that completes may write besides `pc`. Of a store only that it may write memory is said here;
`Instr.storedBytes` says what, and the store's own laws say where. -/
def Instr.writes (p : Params) : Instr → Writes
  | .cls => { display := true }
  | .ret | .call _ => { stack := true }
  | .jp _ | .jpV0 _ | .seImm _ _ | .sneImm _ _ | .seReg _ _ | .sneReg _ _ | .skp _ | .sknp _ => {}
  | .ldImm x _ | .addImm x _ | .ldReg x _ | .orReg x _ | .andReg x _ | .xorReg x _ | .ldVxDt x | .ldVxK x =>
    { regs := [x] }
  | .addReg x _ | .subReg x _ | .shr x _ | .subnReg x _ | .shl x _ => { regs := [x, Reg.vf] }
  | .rnd x _ => { regs := [x], draws := true }
  | .drw _ _ _ => { regs := [Reg.vf], display := true }
  | .ldI _ | .ldFVx _ => { index := true }
  | .addIVx _ => { regs := if p.addISetsVf then [Reg.vf] else [], index := true }
  | .ldDtVx _ => { dt := true }
  | .ldStVx _ => { st := true }
  | .ldBVx _ => { storeLen := memSize }
  | .ldIVx _ => { index := true, storeLen := memSize }
  | .ldVxI x => { regs := regsUpTo x, index := true }

/-- The bytes an instruction stores from `I` on. -/
def Instr.storedBytes (s : State) : Instr → List Byte
  | .ldBVx x => bcdDigits (s.getV x)
  | .ldIVx x => readRegs s.v x
  | _ => []

/-- The six skips. -/
def Instr.isSkip : Instr → Bool
  | .seImm _ _ | .sneImm _ _ | .seReg _ _ | .sneReg _ _ | .skp _ | .sknp _ => true
  | _ => false

/-- Where an instruction that completes from `s` in `t` leaves `pc` (R120). -/
inductive Instr.MovesPc (s t : State) : Instr → Prop
  | advance {i : Instr} (h : t.pc = s.pc + 2#16) : MovesPc s t i
  | skip {i : Instr} (hi : i.isSkip = true) (h : t.pc = s.pc + 4#16) : MovesPc s t i
  | wait {x : Reg} (h : t = s) : MovesPc s t (.ldVxK x)
  | jump {a : Addr12} (h : t.pc = zext16 a) : MovesPc s t (.jp a)
  | call {a : Addr12} (h : t.pc = zext16 a) : MovesPc s t (.call a)
  | jumpOffset {a : Addr12} (h : t.pc = zext16 a + zext16 (s.getV Reg.v0)) : MovesPc s t (.jpV0 a)
  | ret (d : Nat) (hd : d < 16) (h : t.pc = s.stack[d] + 2#16) : MovesPc s t .ret

/-- What holds when an instruction completes from `s` in `t`. -/
structure Instr.Completes (p : Params) (s t : State) (i : Instr) : Prop where
  frame : s.frame t (i.writes p)
  movesPc : i.MovesPc s t
  /-- the memory is what the instruction's stores leave -/
  stores : memWriteBytes p s.mem (s.effAddr 0) (i.storedBytes s) = .ok t.mem
  /-- only a call changes a stack entry, to its own address -/
  stack : t.stack = s.stack ∨ (∃ a, i = .call a) ∧ ∃ (d : Nat) (hd : d < 16), t.stack = s.stack.set d s.pc
  redraws : Machine.Instr.changesDisplay i = true → t.drawPending = true

/-- The usual case: an instruction that neither stores nor touches the stack or the display. -/
theorem Instr.Completes.of_frame {p : Params} {s t : State} {i : Instr} (frame : s.frame t (i.writes p))
    (movesPc : i.MovesPc s t) (hb : i.storedBytes s = []) (hm : t.mem = s.mem) (hs : t.stack = s.stack)
    (hd : Machine.Instr.changesDisplay i = false) : i.Completes p s t where
  frame := frame
  movesPc := movesPc
  stores := by rw [hb, hm, memWriteBytes]
  stack := .inl hs
  redraws h := absurd h (Bool.eq_false_iff.mp hd)

end Sys2Proof
end

section
/-! The outcomes of the instructions whose meaning has a case split, one equation per case. -/

namespace Sys2Proof.Machine

variable {p : Params} {s : State}

/-- The meanings under this model's parameters are the machine's. -/
theorem execWith_params (i : Instr) (s : State) : execWith params i s = exec i s := by cases i <;> rfl

/-- The state a return to depth `d` leaves: the entry it pops stays, and `pc` is past the address in it (R121). -/
def State.afterRet (s : State) (d : Nat) (hd : d < 16) : State :=
  { s with depth := ⟨d, by omega⟩, pc := s.stack[d] + 2#16 }

theorem execWith_ret_of_succ {d : Nat} (hd : d < 16) (h : s.depth.val = d + 1) :
    execWith p .ret s = .next (s.afterRet d hd) := by
  have pop : s.pop = some (s.stack[d], { s with depth := ⟨d, by omega⟩ }) := by
    simp [State.pop_of_pos s (by omega), h]
  change execRet s = _
  rw [execRet, pop]; rfl

theorem execWith_ret_of_zero (h : s.depth.val = 0) : execWith p .ret s = .next (s.takeFault .stackUnderflow) := by
  change execRet s = _
  rw [execRet, State.pop_of_zero s h]

/-- The state a call below depth 16 leaves: its own address pushed, `pc` at the target (R123). -/
def State.afterCall (s : State) (a : Addr12) (h : s.depth.val < 16) : State :=
  { s with stack := s.stack.set s.depth.val s.pc, depth := ⟨s.depth.val + 1, by omega⟩, pc := zext16 a }

theorem execWith_call_of_lt (a : Addr12) (h : s.depth.val < 16) :
    execWith p (.call a) s = .next (s.afterCall a h) := by
  change execCall a s = _
  rw [execCall, State.push_of_lt s s.pc h]; rfl

theorem execWith_call_of_full (a : Addr12) (h : s.depth.val = 16) :
    execWith p (.call a) s = .next (s.takeFault .stackOverflow) := by
  change execCall a s = _
  rw [execCall, State.push_of_full s s.pc h]

theorem execWith_skp_of_ok {x : Reg} {k : Fin 16} (h : keyIndex p (s.getV x) = .ok k) :
    execWith p (.skp x) s = .next (s.skipIf s.keys[k]) := by
  change s.skipOnKey (keyIndex p (s.getV x)) id = _
  rw [h]; rfl

theorem execWith_skp_of_error {x : Reg} {k : FaultKind} (h : keyIndex p (s.getV x) = .error k) :
    execWith p (.skp x) s = .next (s.takeFault k) := by
  change s.skipOnKey (keyIndex p (s.getV x)) id = _
  rw [h]; rfl

theorem execWith_sknp_of_ok {x : Reg} {k : Fin 16} (h : keyIndex p (s.getV x) = .ok k) :
    execWith p (.sknp x) s = .next (s.skipIf (!s.keys[k])) := by
  change s.skipOnKey (keyIndex p (s.getV x)) not = _
  rw [h]; rfl

theorem execWith_sknp_of_error {x : Reg} {k : FaultKind} (h : keyIndex p (s.getV x) = .error k) :
    execWith p (.sknp x) s = .next (s.takeFault k) := by
  change s.skipOnKey (keyIndex p (s.getV x)) not = _
  rw [h]; rfl

theorem execWith_ldVxK_of_some {x : Reg} {k : Nat} (h : lowestKey s.keys = some k) :
    execWith p (.ldVxK x) s = .next (s.setV x (BitVec.ofNat 8 k)).advance := by
  change execLdVxK x s = _
  rw [execLdVxK, h]

theorem execWith_ldVxK_of_none {x : Reg} (h : lowestKey s.keys = none) : execWith p (.ldVxK x) s = .next s := by
  change execLdVxK x s = _
  rw [execLdVxK, h]

/-- The state a draw of the sprite with these rows leaves (R212). -/
def State.drawSprite (s : State) (e : DrawEdge) (x y : Reg) (rows : List Byte) : State :=
  let drawn := drawRows e (s.getV x) (s.getV y) 0 rows (s.display, false)
  ((s.redraw drawn.1).setFlag drawn.2).advance

theorem execWith_drw_of_ok {x y : Reg} {n : Nibble} {rows : List Byte}
    (h : memReadBytes p s.mem (s.effAddr 0) n.toNat = .ok rows) :
    execWith p (.drw x y n) s = .next (s.drawSprite p.drawEdge x y rows) := by
  change drwWith p x y n s = _
  rw [drwWith, h]; rfl

theorem execWith_drw_of_error {x y : Reg} {n : Nibble} {k : FaultKind}
    (h : memReadBytes p s.mem (s.effAddr 0) n.toNat = .error k) : execWith p (.drw x y n) s = .next (s.takeFault k) := by
  change drwWith p x y n s = _
  rw [drwWith, h]; rfl

theorem execWith_ldBVx_of_ok {x : Reg} {m : Memory}
    (h : memWriteBytes p s.mem (s.effAddr 0) (bcdDigits (s.getV x)) = .ok m) :
    execWith p (.ldBVx x) s = .next (s.setMem m).advance := by
  change ldBVxWith p x s = _
  rw [ldBVxWith, h]; rfl

theorem execWith_ldBVx_of_error {x : Reg} {k : FaultKind}
    (h : memWriteBytes p s.mem (s.effAddr 0) (bcdDigits (s.getV x)) = .error k) :
    execWith p (.ldBVx x) s = .next (s.takeFault k) := by
  change ldBVxWith p x s = _
  rw [ldBVxWith, h]; rfl

theorem execWith_ldIVx_of_ok {x : Reg} {m : Memory}
    (h : memWriteBytes p s.mem (s.effAddr 0) (readRegs s.v x) = .ok m) :
    execWith p (.ldIVx x) s = .next ((s.setMem m).setI (indexAfter s.i x)).advance := by
  change ldIVxWith p x s = _
  rw [ldIVxWith, h]; rfl

theorem execWith_ldIVx_of_error {x : Reg} {k : FaultKind}
    (h : memWriteBytes p s.mem (s.effAddr 0) (readRegs s.v x) = .error k) :
    execWith p (.ldIVx x) s = .next (s.takeFault k) := by
  change ldIVxWith p x s = _
  rw [ldIVxWith, h]; rfl

/-- The state with the bytes in `V[0]`, `V[1]`, … in order (R186). -/
def State.loadRegs (s : State) (bs : List Byte) : State := { s with v := writeRegs s.v 0 bs }

theorem execWith_ldVxI_of_ok {x : Reg} {bs : List Byte}
    (h : memReadBytes p s.mem (s.effAddr 0) (x.toNat + 1) = .ok bs) :
    execWith p (.ldVxI x) s = .next ((s.loadRegs bs).setI (indexAfter s.i x)).advance := by
  change ldVxIWith p x s = _
  rw [ldVxIWith, h]; rfl

theorem execWith_ldVxI_of_error {x : Reg} {k : FaultKind}
    (h : memReadBytes p s.mem (s.effAddr 0) (x.toNat + 1) = .error k) :
    execWith p (.ldVxI x) s = .next (s.takeFault k) := by
  change ldVxIWith p x s = _
  rw [ldVxIWith, h]; rfl

theorem execWith_addIVx_of_true {x : Reg} (h : p.addISetsVf = true) :
    execWith p (.addIVx x) s =
      .next ((s.setI (s.i + zext16 (s.getV x))).setFlag (indexOverflow s.i (s.getV x))).advance := by
  change addIVxWith p x s = _
  rw [addIVxWith, h]; rfl

theorem execWith_addIVx_of_false {x : Reg} (h : p.addISetsVf = false) :
    execWith p (.addIVx x) s = .next (s.setI (s.i + zext16 (s.getV x))).advance := by
  change addIVxWith p x s = _
  rw [addIVxWith, h]; rfl

end Sys2Proof.Machine
end

section
/-! Everything an instruction can have done, instruction by instruction. -/

namespace Sys2Proof.Machine

variable {p : Params} {s t : State}

/-- A skip completes by the skip pattern. -/
theorem completes_skipIf {i : Instr} (hi : i.isSkip = true) (c : Bool) : i.Completes p s (s.skipIf c) := by
  have moves : i.MovesPc s (s.skipIf c) := by
    cases c
    · exact .advance rfl
    · exact .skip hi rfl
  have frame : s.frame (s.skipIf c) (i.writes p) := (s.frame_refl _).skipIf c
  cases i <;> cases hi <;> exact .of_frame frame moves rfl (s.skipIf_mem c) (s.skipIf_stack c) rfl

theorem completes_ret {d : Nat} (hd : d < 16) :
    Instr.Completes p s (s.afterRet d hd) .ret :=
  .of_frame { s.frame_refl _ with stack := nofun } (.ret d hd rfl) rfl rfl rfl rfl

theorem completes_call (a : Addr12) (h : s.depth.val < 16) :
    Instr.Completes p s (s.afterCall a h) (.call a) where
  frame := { s.frame_refl _ with stack := nofun }
  movesPc := .call rfl
  stores := rfl
  stack := .inr ⟨⟨a, rfl⟩, s.depth.val, h, rfl⟩
  redraws := nofun

theorem completes_addIVx_of_true {x : Reg} (h : p.addISetsVf = true) :
    Instr.Completes p s ((s.setI (s.i + zext16 (s.getV x))).setFlag (indexOverflow s.i (s.getV x))).advance (.addIVx x) := by
  have flag : Reg.vf ∈ (Instr.writes p (.addIVx x)).regs := by simp [Instr.writes, h]
  exact .of_frame ((((s.frame_refl _).setI rfl _).setFlag flag _).setPc _) (.advance rfl) rfl rfl rfl rfl

theorem completes_cls : Instr.Completes p s (s.redraw Display.clear).advance .cls where
  frame := s.frame_redraw_advance Display.clear
  movesPc := .advance rfl
  stores := rfl
  stack := .inl rfl
  redraws _ := rfl

theorem completes_drw (e : DrawEdge) (x y : Reg) (n : Nibble) (rows : List Byte) :
    Instr.Completes p s (s.drawSprite e x y rows) (.drw x y n) where
  frame := (((s.frame_refl _).redraw rfl _).setFlag (List.mem_singleton_self _) _).setPc _
  movesPc := .advance rfl
  stores := rfl
  stack := .inl rfl
  redraws _ := rfl

/-- Writes that raise no fault change no address above 0xFFF: there is none. -/
theorem memWriteBytes_ok_above {bs : List Byte} {m m' : Memory} {a z : Nat} (h : memWriteBytes p m a bs = .ok m')
    (hz : 0xFFF < z) : m'.read z = m.read z := by
  induction bs generalizing m a with
  | nil => cases h; rfl
  | cons b bs ih =>
    rw [memWriteBytes] at h
    obtain hw | ⟨y, -, hy, -, hw⟩ | hw | hw := memWrite_cases p m a b <;> rw [hw] at h
    · exact ih h
    · rw [ih h, Memory.read_store_ne _ _ _ _ (by omega)]
    · cases h
    · cases h

/-- Replacing the memory by what stores leave keeps a frame that lets the whole memory be written. -/
theorem State.frame.stored {w : Writes} {bs : List Byte} {m : Memory} {a : Nat} (h : s.frame t w)
    (hw : w.storeAt = 0) (hl : w.storeLen = memSize) (hm : memWriteBytes p s.mem a bs = .ok m) : s.frame (t.setMem m) w :=
  h.setMem fun z hz => memWriteBytes_ok_above hm (by rw [hw, hl, memSize] at hz; omega)

theorem completes_ldBVx {x : Reg} {m : Memory} (h : memWriteBytes p s.mem (s.effAddr 0) (bcdDigits (s.getV x)) = .ok m) :
    Instr.Completes p s (s.setMem m).advance (.ldBVx x) where
  frame := ((s.frame_refl _).stored rfl rfl h).setPc _
  movesPc := .advance rfl
  stores := h
  stack := .inl rfl
  redraws := nofun

theorem completes_ldIVx {x : Reg} {m : Memory} (h : memWriteBytes p s.mem (s.effAddr 0) (readRegs s.v x) = .ok m) :
    Instr.Completes p s ((s.setMem m).setI (indexAfter s.i x)).advance (.ldIVx x) where
  frame := (((s.frame_refl _).stored rfl rfl h).setI rfl _).setPc _
  movesPc := .advance rfl
  stores := h
  stack := .inl rfl
  redraws := nofun

theorem mem_regsUpTo {x z : Reg} : z ∈ regsUpTo x ↔ z.toNat ≤ x.toNat := by
  rw [regsUpTo, List.mem_map]
  constructor
  · rintro ⟨k, hk, rfl⟩
    have bound := x.isLt
    rw [List.mem_range] at hk
    rw [BitVec.toNat_ofNat]
    omega
  · intro h
    exact ⟨z.toNat, List.mem_range.mpr (by omega), BitVec.ofNat_toNat _ _ |>.trans (BitVec.setWidth_eq _)⟩

/-- Bytes loaded fill the registers from `V[0]` on and no other (R186). -/
theorem State.getV_loadRegs (s : State) (bs : List Byte) (z : Reg) :
    (s.loadRegs bs).getV z = if h : z.toNat < bs.length then bs[z.toNat] else s.getV z := by
  have run := writeRegs_get bs s.v 0 z.toNat z.isLt
  simpa [State.getV, State.loadRegs] using run

theorem completes_ldVxI {x : Reg} {bs : List Byte} (h : memReadBytes p s.mem (s.effAddr 0) (x.toNat + 1) = .ok bs) :
    Instr.Completes p s ((s.loadRegs bs).setI (indexAfter s.i x)).advance (.ldVxI x) := by
  have others (z : Reg) (hz : z ∉ regsUpTo x) : (s.loadRegs bs).getV z = s.getV z := by
    rw [mem_regsUpTo] at hz
    rw [State.getV_loadRegs, dif_neg (by rw [memReadBytes_length h]; omega)]
  have frame : s.frame (s.loadRegs bs) (Instr.writes p (.ldVxI x)) := { s.frame_refl _ with regs := others }
  exact .of_frame ((frame.setI rfl _).setPc _) (.advance rfl) rfl rfl rfl rfl

/-- Every instruction answers a next state at every state: it takes one of its faults, or it completes. -/
theorem execWith_outcome (p : Params) (i : Instr) (s : State) :
    (∃ k ∈ i.faults, execWith p i s = .next (s.takeFault k)) ∨ ∃ t, execWith p i s = .next t ∧ i.Completes p s t := by
  cases i
  case cls => exact .inr ⟨_, rfl, completes_cls⟩
  case ret =>
    cases hd : s.depth.val with
    | zero => exact .inl ⟨_, List.mem_singleton_self _, execWith_ret_of_zero hd⟩
    | succ d =>
      have lt : d < 16 := by omega
      exact .inr ⟨_, execWith_ret_of_succ lt hd, completes_ret lt⟩
  case jp => exact .inr ⟨_, rfl, .of_frame ((s.frame_refl _).setPc _) (.jump rfl) rfl rfl rfl rfl⟩
  case jpV0 => exact .inr ⟨_, rfl, .of_frame ((s.frame_refl _).setPc _) (.jumpOffset rfl) rfl rfl rfl rfl⟩
  case call a =>
    by_cases hd : s.depth.val < 16
    · exact .inr ⟨_, execWith_call_of_lt a hd, completes_call a hd⟩
    · exact .inl ⟨_, List.mem_singleton_self _, execWith_call_of_full a (by omega)⟩
  case seImm | sneImm | seReg | sneReg => exact .inr ⟨_, rfl, completes_skipIf rfl _⟩
  case skp x =>
    cases hk : keyIndex p (s.getV x) with
    | ok k => exact .inr ⟨_, execWith_skp_of_ok hk, completes_skipIf rfl _⟩
    | error k => exact .inl ⟨_, List.mem_singleton.mpr (keyIndex_error hk), execWith_skp_of_error hk⟩
  case sknp x =>
    cases hk : keyIndex p (s.getV x) with
    | ok k => exact .inr ⟨_, execWith_sknp_of_ok hk, completes_skipIf rfl _⟩
    | error k => exact .inl ⟨_, List.mem_singleton.mpr (keyIndex_error hk), execWith_sknp_of_error hk⟩
  case ldImm x _ | addImm x _ | ldReg x _ | orReg x _ | andReg x _ | xorReg x _ | ldVxDt x =>
    exact .inr ⟨_, rfl, .of_frame (s.frame_setV_advance x _) (.advance rfl) rfl rfl rfl rfl⟩
  case addReg x _ | subReg x _ | shr x _ | subnReg x _ | shl x _ =>
    exact .inr ⟨_, rfl, .of_frame (s.frame_setVFlag_advance x _ _) (.advance rfl) rfl rfl rfl rfl⟩
  case rnd x _ => exact .inr ⟨_, rfl, .of_frame (s.frame_rnd_advance x _) (.advance rfl) rfl rfl rfl rfl⟩
  case ldVxK x =>
    cases hk : lowestKey s.keys with
    | some k =>
      exact .inr ⟨_, execWith_ldVxK_of_some hk, .of_frame (s.frame_setV_advance x _) (.advance rfl) rfl rfl rfl rfl⟩
    | none => exact .inr ⟨_, execWith_ldVxK_of_none hk, .of_frame (s.frame_refl _) (.wait rfl) rfl rfl rfl rfl⟩
  case ldI | ldFVx => exact .inr ⟨_, rfl, .of_frame (s.frame_setI_advance _) (.advance rfl) rfl rfl rfl rfl⟩
  case addIVx x =>
    cases hf : p.addISetsVf with
    | true => exact .inr ⟨_, execWith_addIVx_of_true hf, completes_addIVx_of_true hf⟩
    | false =>
      have frame : s.frame (s.setI (s.i + zext16 (s.getV x))) (Instr.writes p (.addIVx x)) := (s.frame_refl _).setI rfl _
      exact .inr ⟨_, execWith_addIVx_of_false hf, .of_frame (frame.setPc _) (.advance rfl) rfl rfl rfl rfl⟩
  case ldDtVx => exact .inr ⟨_, rfl, .of_frame (s.frame_setDt_advance _) (.advance rfl) rfl rfl rfl rfl⟩
  case ldStVx => exact .inr ⟨_, rfl, .of_frame (s.frame_setSt_advance _) (.advance rfl) rfl rfl rfl rfl⟩
  case drw x y n =>
    cases hr : memReadBytes p s.mem (s.effAddr 0) n.toNat with
    | ok rows => exact .inr ⟨_, execWith_drw_of_ok hr, completes_drw ..⟩
    | error k => exact .inl ⟨_, List.mem_singleton.mpr (memReadBytes_error hr), execWith_drw_of_error hr⟩
  case ldVxI x =>
    cases hr : memReadBytes p s.mem (s.effAddr 0) (x.toNat + 1) with
    | ok bs => exact .inr ⟨_, execWith_ldVxI_of_ok hr, completes_ldVxI hr⟩
    | error k => exact .inl ⟨_, List.mem_singleton.mpr (memReadBytes_error hr), execWith_ldVxI_of_error hr⟩
  case ldBVx x =>
    cases hw : memWriteBytes p s.mem (s.effAddr 0) (bcdDigits (s.getV x)) with
    | ok m => exact .inr ⟨_, execWith_ldBVx_of_ok hw, completes_ldBVx hw⟩
    | error k => exact .inl ⟨_, by simpa [Instr.faults] using memWriteBytes_error hw, execWith_ldBVx_of_error hw⟩
  case ldIVx x =>
    cases hw : memWriteBytes p s.mem (s.effAddr 0) (readRegs s.v x) with
    | ok m => exact .inr ⟨_, execWith_ldIVx_of_ok hw, completes_ldIVx hw⟩
    | error k => exact .inl ⟨_, by simpa [Instr.faults] using memWriteBytes_error hw, execWith_ldIVx_of_error hw⟩

/-- Everything an instruction can have done that answered the next state `t`. -/
theorem execWith_next {i : Instr} (h : execWith p i s = .next t) :
    (∃ k ∈ i.faults, t = s.takeFault k) ∨ i.Completes p s t := by
  obtain ⟨k, hk, e⟩ | ⟨u, e, hu⟩ := execWith_outcome p i s
  · exact .inl ⟨k, hk, Host.Outcome.next.inj (h.symm.trans e)⟩
  · obtain rfl := Host.Outcome.next.inj (h.symm.trans e)
    exact .inr hu

/-- The same at this model's parameters. -/
theorem exec_next {i : Instr} (h : exec i s = .next t) :
    (∃ k ∈ i.faults, t = s.takeFault k) ∨ i.Completes params s t :=
  execWith_next ((execWith_params i s).trans h)

end Sys2Proof.Machine
end

section
/-! The step (spec/40_control_flow.md R120, spec/60_exceptions.md): it completes or takes a fault. -/

namespace Sys2Proof.Machine

variable {s t : State}

/-- A step of a live engine runs the instruction it fetched (R120). -/
theorem step_of_decode {code : Code} {i : Instr} (hl : s.live = true) (hf : fetch16 s.mem s.pc = .ok code)
    (hd : decode code = .ok i) : step s = exec i (s.setEstate .running) := by
  rw [step, stepOver_live decode exec s hl, hf]
  simp only [hd]

/-- It skips an unknown code (R266). -/
theorem step_of_unknown {code : Code} {e : Reject} (hl : s.live = true) (hf : fetch16 s.mem s.pc = .ok code)
    (hd : decode code = .error e) : step s = .next (s.setEstate .running).advance := by
  rw [step, stepOver_live decode exec s hl, hf]
  simp only [hd, stepUnknown]

/-- It takes the fault of its fetch (R64). -/
theorem step_of_fetch_error {k : FaultKind} (hl : s.live = true) (hf : fetch16 s.mem s.pc = .error k) :
    step s = .next (s.takeFault k) := by
  rw [step, stepOver_live decode exec s hl, hf]

/-- What a step under any parameters did that answered the next state `t`: it took a fault and wrote nothing else, or it
skipped an unknown code, or it completed the instruction it fetched. -/
theorem stepWith_next {p : Params} (h : stepWith p s = .next t) :
    (∃ k, t = s.takeFault k) ∨
    s.live = true ∧ ∃ code, fetch16 s.mem s.pc = .ok code ∧
      ((∃ e, decodeWith p.decode59IgnoreN code = .error e ∧ t = (s.setEstate .running).advance) ∨
       ∃ i, decodeWith p.decode59IgnoreN code = .ok i ∧ i.Completes p (s.setEstate .running) t) := by
  obtain ⟨hl, ⟨-, ht⟩ | ⟨code, e, hf, hd, ht⟩ | ⟨code, i, hf, hd, hx⟩⟩ := stepOver_next h
  · exact .inl ⟨_, ht⟩
  · exact .inr ⟨hl, code, hf, .inl ⟨e, hd, ht⟩⟩
  · obtain ⟨k, -, ht⟩ | done := execWith_next hx
    · exact .inl ⟨k, ht⟩
    · exact .inr ⟨hl, code, hf, .inr ⟨i, hd, done⟩⟩

/-- The step under this model's parameters is the machine's. -/
theorem stepWith_params (s : State) : stepWith params s = step s :=
  congrArg (stepOver decode · s) (funext fun i => funext (execWith_params i))

theorem step_next (h : step s = .next t) :
    (∃ k, t = s.takeFault k) ∨
    s.live = true ∧ ∃ code, fetch16 s.mem s.pc = .ok code ∧
      ((∃ e, decode code = .error e ∧ t = (s.setEstate .running).advance) ∨
       ∃ i, decode code = .ok i ∧ i.Completes params (s.setEstate .running) t) :=
  stepWith_next ((stepWith_params s).trans h)

/-- A step that faults wrote nothing but the fault; one that does not leaves the engine Running. -/
theorem step_next_fault_or_running (h : step s = .next t) : (∃ k, t = s.takeFault k) ∨ t.estate = .running := by
  obtain fault | ⟨-, code, -, ⟨e, -, rfl⟩ | ⟨i, -, done⟩⟩ := step_next h
  · exact .inl fault
  · exact .inr rfl
  · exact .inr done.frame.estate

/-- Settles O10: the fetch reads the two bytes at `pc`. -/
theorem stepRunsDecodedInstruction : Obligations.StepRunsDecodedInstruction := by
  intro s i hl hp hd
  exact step_of_decode hl (fetch16_ok s.mem s.pc hp) hd

/-- Settles O11: the fetch faults past 0xFFF. -/
theorem fetchOutOfBoundsFaults : Obligations.FetchOutOfBoundsFaults := by
  intro s hl hp
  exact step_of_fetch_error hl (fetch16_error s.mem s.pc hp)

theorem State.estate_ne_faulted_of_live (hl : s.live = true) : s.estate ≠ .faulted := by
  obtain h | h := State.live_cases hl <;> simp [h]

/-- A step of a live engine reports an unknown code with its address, and nothing of an instruction (R266). -/
theorem stepDiagnostic_of_unknown {code : Code} {e : Reject} (hl : s.live = true) (hf : fetch16 s.mem s.pc = .ok code)
    (hd : decode code = .error e) : stepDiagnostic s = some ⟨code, s.pc⟩ := by
  rw [stepDiagnostic]
  obtain h | h := State.live_cases hl <;> simp only [h, hf, hd]

theorem stepDiagnostic_of_decode {code : Code} {i : Instr} (hl : s.live = true) (hf : fetch16 s.mem s.pc = .ok code)
    (hd : decode code = .ok i) : stepDiagnostic s = none := by
  rw [stepDiagnostic]
  obtain h | h := State.live_cases hl <;> simp only [h, hf, hd]

/-- It reports `display_changed` for the instructions that change the display (R215). -/
theorem displayChanged_of_decode {code : Code} {i : Instr} (hf : fetch16 s.mem s.pc = .ok code)
    (hd : decode code = .ok i) : displayChanged s = Instr.changesDisplay i := by
  rw [displayChanged, hf]
  simp only [hd]

theorem displayChanged_of_unknown {code : Code} {e : Reject} (hf : fetch16 s.mem s.pc = .ok code)
    (hd : decode code = .error e) : displayChanged s = false := by
  rw [displayChanged, hf]
  simp only [hd]

/-- The transaction of a step that completes returns `Ok` (R280). -/
theorem transact_step_of_running (h : step s = .next t) (hr : t.estate = .running) :
    transact .step s = .ok (t, .stepped (displayChanged s) (stepDiagnostic s)) := by
  have ok : t.estate ≠ .faulted := by simp [hr]
  simp only [transact, h, stepResponse, if_neg ok]

/-- The transaction of a step that faults returns the fault (R263). -/
theorem transact_step_of_takeFault {k : FaultKind} (h : step s = .next (s.takeFault k)) :
    transact .step s = .ok (s.takeFault k, .stepFailed (some k)) := by
  simp only [transact, h]; rfl

/-- Settles O12: an unknown code is no instruction, so the step only advances and reports it. -/
theorem unknownCodeIsReportedAndSkipped : Obligations.UnknownCodeIsReportedAndSkipped := by
  intro s code hl hf hd
  rw [transact_step_of_running (step_of_unknown hl hf hd) rfl, displayChanged_of_unknown hf hd,
    stepDiagnostic_of_unknown hl hf hd]
  rfl

/-- Settles O13: the fetch, the decoder and every instruction answer a next state. -/
theorem liveStepCompletesOrFaults : Obligations.LiveStepCompletesOrFaults := by
  intro s hl
  have answers : ∃ t, step s = .next t := by
    cases hf : fetch16 s.mem s.pc with
    | error k => exact ⟨_, step_of_fetch_error hl hf⟩
    | ok code =>
      cases hd : decode code with
      | error e => exact ⟨_, step_of_unknown hl hf hd⟩
      | ok i =>
        rw [step_of_decode hl hf hd, ← execWith_params]
        obtain ⟨k, -, h⟩ | ⟨t, h, -⟩ := execWith_outcome params i (s.setEstate .running)
        · exact ⟨_, h⟩
        · exact ⟨t, h⟩
  obtain ⟨t, h⟩ := answers
  obtain ⟨k, rfl⟩ | running := step_next_fault_or_running h
  · exact .inr ⟨_, h, rfl⟩
  · exact .inl ⟨t, h, running⟩

/-- Settles O16: a step that leaves Faulted took a fault, which is all it wrote. -/
theorem faultingStepHasNoEffect : Obligations.FaultingStepHasNoEffect := by
  intro s t h hfaulted
  obtain ⟨k, rfl⟩ | running := step_next_fault_or_running h
  · exact ⟨k, rfl, transact_step_of_takeFault h⟩
  · rw [running] at hfaulted
    cases hfaulted

/-- A program that fits is copied to the entry point of the reset state (R313). -/
theorem transact_load_of_le {bytes : List Byte} (s : State) (h : bytes.length ≤ maxProgram) :
    transact (.load bytes) s =
      .ok ((hostReset s).setMem ((hostReset s).mem.storeBytes entry.toNat bytes), .done) := by
  simp only [transact, hostLoad, if_neg (Nat.not_lt.mpr h)]

/-- A longer program leaves the reset state (R313, D16). -/
theorem transact_load_of_gt {bytes : List Byte} (s : State) (h : bytes.length > maxProgram) :
    transact (.load bytes) s = .ok (hostReset s, .loadFailed .romTooLarge) := by
  simp only [transact, hostLoad, if_pos h]

/-- Settles O15: the step and what `whenInitialized` guards are refused, and nothing else is. -/
theorem uninitializedEngineRefuses : Obligations.UninitializedEngineRefuses := by
  intro s hu
  have refused : step s = .refused .uninitialized := by rw [step, stepOver, hu]
  refine ⟨refused, ?_, ?_⟩
  · intro op hop
    simp only [List.mem_cons, List.not_mem_nil, or_false] at hop
    obtain rfl | rfl | rfl | rfl | rfl := hop
    · rw [transact, refused]
    all_goals rw [transact, whenInitialized, if_pos hu]
  · intro op hop
    cases op
    case load bytes =>
      by_cases hlen : bytes.length > maxProgram
      · exact ⟨_, _, transact_load_of_gt s hlen⟩
      · exact ⟨_, _, transact_load_of_le s (by omega)⟩
    case reset | setKeyPressed | status => exact ⟨_, _, rfl⟩
    all_goals simp at hop

/-- Settles O17: an instruction faults only with a fault of its own, and the fault record is the kind taken. -/
theorem eachInstructionRaisesOnlyItsFaults : Obligations.EachInstructionRaisesOnlyItsFaults := by
  intro p i s t hrunning h hfaulted
  obtain ⟨k, hk, rfl⟩ | done := execWith_next h
  · rw [State.takeFault_faultKind]
    cases i <;> simp [Instr.faults] at hk <;> simp [hk]
  · rw [done.frame.estate, hrunning] at hfaulted
    cases hfaulted

/-- Settles O26: an instruction that completes moves `pc` in one of the ways `Instr.MovesPc` lists. -/
theorem otherInstructionsAdvanceByTwo : Obligations.OtherInstructionsAdvanceByTwo := by
  intro i s t hrunning h hok
  obtain ⟨k, -, rfl⟩ | done := exec_next h
  · cases hok
  cases done.movesPc with
  | advance hpc => exact .inl hpc
  | skip hi hpc =>
    right; right; left
    refine ⟨?_, hpc⟩
    cases i <;> simp [Instr.isSkip] at hi <;> simp
  | wait ht => exact .inr (.inr (.inr ⟨⟨_, rfl⟩, ht⟩))
  | jump | call | jumpOffset => simp
  | ret => simp

end Sys2Proof.Machine
end

section
/-! The whole-machine rules: what no instruction or only some can write. Each is read off `Instr.Completes`; an instruction
that faults writes none of it. -/

namespace Sys2Proof.Machine

variable {p : Params} {s t : State}

/-! ### Memory -/

/-- Settles O21: stores keep the glyph region, and nothing else writes memory. -/
theorem noStepChangesTheGlyphRegion : Obligations.NoStepChangesTheGlyphRegion := by
  intro p s t h a ha
  obtain ⟨k, rfl⟩ | ⟨-, code, -, ⟨e, -, rfl⟩ | ⟨i, -, done⟩⟩ := stepWith_next h
  · rfl
  · rfl
  · exact (memWriteBytes_ok done.stores).1 a ha

/-- Settles O22: the only bytes stored are those of the two stores, from `I` on, in the address space and outside the glyph
region. -/
theorem onlyStoresChangeMemory : Obligations.OnlyStoresChangeMemory := by
  intro i s t a h hne
  obtain ⟨k, -, rfl⟩ | done := exec_next h
  · exact absurd rfl hne
  have glyph : ¬a < 0x50 := fun ha => hne ((memWriteBytes_ok done.stores).1 a ha)
  have range : ¬(a < s.i.toNat ∨ s.i.toNat + (i.storedBytes s).length ≤ a ∨ 0xFFF < a) :=
    fun ha => hne (memWriteBytes_ok_out rfl done.stores a ha)
  refine ⟨by omega, by omega, ?_⟩
  cases i
  case ldBVx x =>
    have len : (Instr.storedBytes s (.ldBVx x)).length = 3 := rfl
    exact .inl ⟨⟨x, rfl⟩, by omega, by omega⟩
  case ldIVx x =>
    have len : (Instr.storedBytes s (.ldIVx x)).length = x.toNat + 1 := readRegs_length s.v x
    exact .inr ⟨x, rfl, by omega, by omega⟩
  all_goals exact absurd (Nat.lt_or_ge a s.i.toNat) fun h => range (h.imp_right .inl)

/-! ### Registers and the other fields -/

/-- Settles O24: `VF` is among the registers written only for the instructions named. -/
theorem vfKeepsItsValueOtherwise : Obligations.VFKeepsItsValueOtherwise := by
  intro p i s t h hne
  obtain ⟨k, -, rfl⟩ | done := execWith_next h
  · exact absurd rfl hne
  have written : Reg.vf ∈ (i.writes p).regs := by
    by_contra hz
    exact hne (done.frame.regs Reg.vf hz)
  cases i
  case ldVxI x =>
    have hx : Reg.vf.toNat ≤ x.toNat := mem_regsUpTo.mp written
    have bound := x.isLt
    have : x = Reg.vf := BitVec.eq_of_toNat_eq (by simp at hx ⊢; omega)
    simp [this]
  all_goals simp [Instr.writes] at written
  all_goals simp [written]

/-- The instructions that may write `I`, the stack, `DT`, `ST`, the display, the draw counter. -/
theorem writers_index {i : Instr} (h : (i.writes p).index = true) :
    (∃ a, i = .ldI a) ∨ ∃ x, i = .addIVx x ∨ i = .ldFVx x ∨ i = .ldIVx x ∨ i = .ldVxI x := by
  cases i <;> cases h <;> simp

theorem writers_stack {i : Instr} (h : (i.writes p).stack = true) : i = .ret ∨ ∃ a, i = .call a := by
  cases i <;> cases h <;> simp

theorem writers_dt {i : Instr} (h : (i.writes p).dt = true) : ∃ x, i = .ldDtVx x := by
  cases i <;> cases h
  simp

theorem writers_st {i : Instr} (h : (i.writes p).st = true) : ∃ x, i = .ldStVx x := by
  cases i <;> cases h
  simp

theorem writers_display {i : Instr} (h : (i.writes p).display = true) : i = .cls ∨ ∃ x y n, i = .drw x y n := by
  cases i <;> cases h <;> simp

theorem writers_draws {i : Instr} (h : (i.writes p).draws = true) : ∃ x b, i = .rnd x b := by
  cases i <;> cases h
  simp

/-- Settles O25: a field that changed is one the instruction may write. -/
theorem eachFieldHasItsWriters : Obligations.EachFieldHasItsWriters := by
  intro i s t h
  obtain ⟨k, -, rfl⟩ | done := exec_next h
  · simp
  refine ⟨fun hne => ?index, fun hne => ?stack, fun hne => ?depth, fun hne => ?dt, fun hne => ?st, done.frame.keys,
    fun hne => ?display, fun hne => ?draws, fun hne => ?record⟩
  case index => exact writers_index (by_contra fun hw => hne (done.frame.index (Bool.eq_false_iff.mpr hw)))
  case stack => exact done.stack.resolve_left hne |>.1
  case depth => exact writers_stack (by_contra fun hw => hne (done.frame.stack (Bool.eq_false_iff.mpr hw)).2)
  case dt => exact writers_dt (by_contra fun hw => hne (done.frame.dt (Bool.eq_false_iff.mpr hw)))
  case st => exact writers_st (by_contra fun hw => hne (done.frame.st (Bool.eq_false_iff.mpr hw)))
  case display =>
    refine writers_display (p := params) (by_contra fun hw => ?_)
    obtain ⟨hd, hp⟩ := done.frame.display (Bool.eq_false_iff.mpr hw)
    exact hne.elim (absurd hd) (absurd hp)
  case draws => exact writers_draws (by_contra fun hw => hne (done.frame.draws (Bool.eq_false_iff.mpr hw)))
  case record =>
    obtain h | h | h := hne
    · exact absurd done.frame.estate h
    · exact absurd done.frame.faultKind h
    · exact absurd done.frame.faultPc h

/-- The two instructions that report `display_changed` are those that may write the display. -/
theorem changesDisplay_iff (i : Instr) : Instr.changesDisplay i = true ↔ i = .cls ∨ ∃ x y n, i = .drw x y n := by
  cases i <;> simp [Instr.changesDisplay]

theorem writes_display (i : Instr) : (i.writes p).display = Instr.changesDisplay i := by cases i <;> rfl

/-- Settles O23: CLS and DRW redraw when they complete; every other code leaves the display and its flag. -/
theorem onlyClsAndDrwMarkARedraw : Obligations.OnlyClsAndDrwMarkARedraw := by
  intro s t h hok
  refine ⟨_, _, transact_step_of_running h hok, ?_⟩
  obtain ⟨k, rfl⟩ | ⟨-, code, hf, hcode⟩ := step_next h
  · cases hok
  obtain ⟨-, rfl⟩ := fetch16_eq_ok hf
  obtain ⟨e, hd, rfl⟩ | ⟨i, hd, done⟩ := hcode
  · simp [hd, displayChanged_of_unknown hf hd]
  · simp only [hd, displayChanged_of_decode hf hd, Except.ok.injEq, exists_eq_left', ← changesDisplay_iff]
    constructor
    · intro hi
      exact ⟨hi, done.redraws hi⟩
    · intro hi
      obtain ⟨display, pending⟩ := done.frame.display ((writes_display i).trans (Bool.eq_false_iff.mpr hi))
      exact ⟨Bool.eq_false_iff.mpr hi, pending, display⟩

end Sys2Proof.Machine
end

section
/-! The invariant: every step and every transaction keeps it, and reset and load establish it. -/

namespace Sys2Proof.Machine

variable {p : Params} {s t : State}

/-- Taking a fault writes the engine state and the fault record together. -/
theorem State.Inv.takeFault (h : s.Inv) (k : FaultKind) : (s.takeFault k).Inv where
  memWf := h.memWf
  glyphs := h.glyphs
  pcBound := h.pcBound
  stackBound := h.stackBound
  initialized := nofun
  faultRecord := ⟨fun _ => rfl, fun _ => rfl⟩
  noFaultPc := nofun

/-- A live engine has no fault recorded, so it may go to Running. -/
theorem State.Inv.setRunning (h : s.Inv) (hl : s.live = true) : (s.setEstate .running).Inv :=
  { h with
    initialized := nofun
    faultRecord := ⟨nofun, fun hk => absurd (h.faultRecord.mpr hk) (State.estate_ne_faulted_of_live hl)⟩ }

/-- Where an instruction fetched below 0xFFF leaves `pc`: a jump with offset reaches furthest, to 0xFFF + 0xFF (R25). -/
theorem movesPc_bound {i : Instr} (h : i.MovesPc s t) (hp : s.pc.toNat ≤ 0xFFE)
    (hs : ∀ k : Fin 16, s.stack[k].toNat ≤ 0xFFE) : t.pc.toNat ≤ 0x10FE := by
  have target (a : Addr12) : (zext16 a).toNat = a.toNat := BitVec.toNat_setWidth_of_le (by decide)
  cases h with
  | advance h => rw [h]; bv_omega
  | skip _ h => rw [h]; bv_omega
  | wait h => rw [h]; omega
  | jump h => rw [h, target]; omega
  | call h => rw [h, target]; omega
  | jumpOffset h => rw [h, toNat_zext16_add_zext16]; omega
  | ret d hd h =>
    have entry : s.stack[d].toNat ≤ 0xFFE := hs ⟨d, hd⟩
    rw [h]; bv_omega

/-- An instruction that was fetched and completes keeps the invariant. -/
theorem State.Inv.completes {i : Instr} (h : s.Inv) (hp : s.pc.toNat ≤ 0xFFE) (done : i.Completes p s t) : t.Inv where
  memWf := (memWriteBytes_ok done.stores).2 h.memWf
  glyphs a ha := ((memWriteBytes_ok done.stores).1 a ha).trans (h.glyphs a ha)
  pcBound := movesPc_bound done.movesPc hp h.stackBound
  stackBound k := by
    obtain same | ⟨-, d, hd, pushed⟩ := done.stack
    · rw [same]; exact h.stackBound k
    · have entry : t.stack[k] = if d = k.val then s.pc else s.stack[k] := by
        simp [pushed, Vector.getElem_set]
      rw [entry]
      split
      · exact hp
      · exact h.stackBound k
  initialized := done.frame.estate ▸ h.initialized
  faultRecord := by rw [done.frame.estate, done.frame.faultKind]; exact h.faultRecord
  noFaultPc := by rw [done.frame.faultKind, done.frame.faultPc]; exact h.noFaultPc

/-- Settles O19: a fault, an unknown code and an instruction that completes each keep the invariant. -/
theorem stepKeepsTheInvariant : Obligations.StepKeepsTheInvariant := by
  intro s t hs h
  obtain ⟨k, rfl⟩ | ⟨hl, code, hf, hcode⟩ := step_next h
  · exact hs.takeFault k
  have fetched : s.pc.toNat ≤ 0xFFE := by
    obtain ⟨hp, -⟩ := fetch16_eq_ok hf
    omega
  have running := hs.setRunning hl
  obtain ⟨e, -, rfl⟩ | ⟨i, -, done⟩ := hcode
  · have bound : (s.pc + 2#16).toNat ≤ 0x10FE := by bv_omega
    exact { running with pcBound := bound }
  · exact running.completes fetched done

/-- Reset establishes the invariant from any state: memory lists nothing and the stack is zeros. -/
theorem hostReset_inv (s : State) : (hostReset s).Inv where
  memWf := Memory.wf_reset
  glyphs _ _ := rfl
  pcBound := by change entry.toNat ≤ 0x10FE; decide
  stackBound k := by simp [hostReset, State.reset]
  initialized := nofun
  faultRecord := ⟨nofun, nofun⟩
  noFaultPc _ := rfl

/-- Settles O18: the reset state is what reset leaves of itself. -/
theorem resetMeetsTheInvariant : Obligations.ResetMeetsTheInvariant := hostReset_inv State.reset

/-- Load stores above the glyph region and within memory, for it takes no program that would not fit (R313). -/
theorem hostLoad_inv (s : State) (bytes : List Byte) : (hostLoad bytes s).1.Inv := by
  rw [hostLoad]
  split
  case isTrue => exact hostReset_inv s
  case isFalse hlen =>
    have reset := hostReset_inv s
    have start : entry.toNat = 0x200 := rfl
    have fits : entry.toNat + bytes.length ≤ memSize := by
      rw [maxProgram_eq] at hlen
      simp only [memSize] at hlen ⊢
      omega
    exact { reset with
      memWf := Memory.wf_storeBytes bytes _ _ reset.memWf fits
      glyphs := fun a ha =>
        (Memory.read_storeBytes_out bytes _ _ a (.inl (by rw [start]; simp only [glyphEnd] at ha; omega))).trans
          (reset.glyphs a ha) }

/-- What `whenInitialized` lets through is what it was given. -/
theorem whenInitialized_ok {r r' : State × Response} (h : whenInitialized s r = .ok r') : r = r' := by
  rw [whenInitialized] at h
  split at h
  · cases h
  · exact Except.ok.inj h

theorem tickDelay_inv (h : s.Inv) : (tickDelay s).Inv := by
  rw [tickDelay]
  split
  · exact { h with }
  · exact h

theorem tickSound_inv (h : s.Inv) : (tickSound s).Inv := by
  rw [tickSound]
  split
  · exact { h with }
  · exact h

/-- Settles O20: reset and load establish the invariant, a step keeps it, and the other transactions write only the timers,
the keys and the redraw flag, which it does not mention. -/
theorem transactionsKeepTheInvariant : Obligations.TransactionsKeepTheInvariant := by
  refine ⟨fun op s t r hs h => ?_, hostReset_inv, hostLoad_inv⟩
  cases op
  case reset => cases h; exact hostReset_inv s
  case load bytes =>
    have loaded := hostLoad_inv s bytes
    rw [transact] at h
    split at h
    case h_1 hload => cases h; rwa [hload] at loaded
    case h_2 hload => cases h; rwa [hload] at loaded
  case step =>
    rw [transact] at h
    split at h
    case h_1 u hu => cases h; exact stepKeepsTheInvariant s _ hs hu
    case h_2 => cases h; exact hs
    case h_3 => cases h
  case tickDelay => cases whenInitialized_ok h; exact tickDelay_inv hs
  case tickSound => cases whenInitialized_ok h; exact tickSound_inv hs
  case setKeyPressed => cases h; exact { hs with }
  case snapshot => cases whenInitialized_ok h; exact hs
  case ackRedraw => cases whenInitialized_ok h; exact { hs with }
  case status => cases h; exact hs

end Sys2Proof.Machine
end

section
/-! The memory family (spec/20_memory.md): the data accesses, and the canonical form of memory. -/

namespace Sys2Proof.Machine

/-- Settles O6: an access resolves its address, then reads or writes the byte there. -/
theorem dataAccessesFollowTheirPseudocode : Obligations.DataAccessesFollowTheirPseudocode := by
  intro p m addr b
  refine ⟨memRead_in p m addr, fun h hp => ?outFault, fun h hp => ?outWrap, memWrite_glyph p m addr b,
    fun h hp => ?glyph, fun h h' => ?store⟩
  case outFault =>
    have out := resolveAddr_out p addr h hp
    exact ⟨by rw [memRead, out], by rw [memWrite, out]⟩
  case outWrap =>
    have wrapped := resolveAddr_wrap p addr h hp
    have inside := resolveAddr_in p (addr % 4096) (by omega)
    exact ⟨by rw [memRead, wrapped], by rw [memWrite, memWrite, wrapped, inside]⟩
  case glyph =>
    rw [memWrite, resolveAddr_in p addr (by omega)]
    simp only [if_pos h, hp]
  case store =>
    refine ⟨_, memWrite_in p m addr b h h', fun a => ?_⟩
    by_cases ha : a = addr
    · rw [if_pos ha, ha, Memory.read_store_same]
    · rw [if_neg ha, Memory.read_store_ne _ _ _ _ ha]

theorem Memory.wfFrom_cons_iff {lo a : Nat} {b : Byte} {rest : Memory} :
    Memory.wfFrom lo ((a, b) :: rest) = true ↔
      lo ≤ a ∧ a < memSize ∧ b ≠ unlistedByte a ∧ Memory.wfFrom (a + 1) rest = true := by
  simp only [Memory.wfFrom, Bool.and_eq_true, decide_eq_true_eq, bne_iff_ne, and_assoc]

/-- A canonical memory that starts past an entry's address does not read alike there. -/
theorem Memory.read_ne_of_listed {a lo : Nat} {b : Byte} {rest m : Memory} (hb : b ≠ unlistedByte a)
    (h : m.wfFrom lo = true) (ha : a < lo) : Memory.read ((a, b) :: rest) a ≠ m.read a := by
  rwa [Memory.read_below m lo a h ha, Memory.read, if_pos rfl]

/-- Memories with one first entry that read alike have tails that read alike: below its next address both read as
unlisted. -/
theorem Memory.read_tail_eq {a : Nat} {b : Byte} {rest rest' : Memory} (h : rest.wfFrom (a + 1) = true)
    (h' : rest'.wfFrom (a + 1) = true)
    (hread : ∀ z, Memory.read ((a, b) :: rest) z = Memory.read ((a, b) :: rest') z) (z : Nat) :
    rest.read z = rest'.read z := by
  by_cases hz : z = a
  · rw [Memory.read_below rest (a + 1) z h (by omega), Memory.read_below rest' (a + 1) z h' (by omega)]
  · have here := hread z
    rwa [Memory.read, Memory.read, if_neg hz, if_neg hz] at here

theorem Memory.eq_of_read_eq {m m' : Memory} {lo : Nat} (h : m.wfFrom lo = true) (h' : m'.wfFrom lo = true)
    (hread : ∀ a, m.read a = m'.read a) : m = m' := by
  induction m generalizing m' lo with
  | nil =>
    cases m' with
    | nil => rfl
    | cons c' rest' =>
      obtain ⟨a', b'⟩ := c'
      obtain ⟨-, -, hb', -⟩ := Memory.wfFrom_cons_iff.mp h'
      exact absurd (hread a').symm (Memory.read_ne_of_listed hb' (lo := a' + 1) rfl (by omega))
  | cons c rest ih =>
    obtain ⟨a, b⟩ := c
    obtain ⟨-, hsize, hb, hrest⟩ := Memory.wfFrom_cons_iff.mp h
    cases m' with
    | nil => exact absurd (hread a) (Memory.read_ne_of_listed hb (lo := a + 1) rfl (by omega))
    | cons c' rest' =>
      obtain ⟨a', b'⟩ := c'
      obtain ⟨-, hsize', hb', hrest'⟩ := Memory.wfFrom_cons_iff.mp h'
      obtain hlt | heq | hgt := Nat.lt_trichotomy a a'
      · have from_a' := Memory.wfFrom_cons_iff.mpr ⟨Nat.le_refl a', hsize', hb', hrest'⟩
        exact absurd (hread a) (Memory.read_ne_of_listed hb from_a' hlt)
      · subst heq
        obtain rfl : b = b' := by simpa [Memory.read] using hread a
        rw [ih hrest hrest' (Memory.read_tail_eq hrest hrest' hread)]
      · have from_a := Memory.wfFrom_cons_iff.mpr ⟨Nat.le_refl a, hsize, hb, hrest⟩
        exact absurd (hread a').symm (Memory.read_ne_of_listed hb' from_a hgt)

/-- Settles O8: canonical memories that read alike have the same first entry, and so on along the list. -/
theorem canonicalMemoriesThatReadAlikeAreEqual : Obligations.CanonicalMemoriesThatReadAlikeAreEqual := by
  intro m m' h h' hread
  exact Memory.eq_of_read_eq h h' hread

end Sys2Proof.Machine
end

section
/-! The control-flow family (spec/40_control_flow.md): call and return; and the engine that stays where it is
(spec/60_exceptions.md R284, spec/70_reset_and_hazards.md R320). -/

namespace Sys2Proof.Machine

variable {s t : State}

/-! ### Call and return -/

/-- Settles O31: below depth 16 the call writes the entry at `depth` and counts it; at depth 16 it faults. -/
theorem callPushesItsOwnAddress : Obligations.CallPushesItsOwnAddress := by
  intro nnn s
  constructor
  · intro hd
    refine ⟨_, execWith_call_of_lt (p := params) nnn hd, fun k => ?_, rfl, ?_, ?_⟩
    · simp [State.afterCall, Vector.getElem_set, eq_comm]
    · exact BitVec.toNat_setWidth_of_le (by decide)
    · exact (completes_call (p := params) nnn hd).frame
  · exact execWith_call_of_full (p := params) nnn

/-- Settles O32: the return leaves the stack as it is, one entry less of it occupied. -/
theorem returnResumesAfterTheCall : Obligations.ReturnResumesAfterTheCall := by
  intro s
  constructor
  · intro d hd
    exact ⟨_, execWith_ret_of_succ (p := params) d.isLt hd, rfl, rfl, rfl, (completes_ret (p := params) d.isLt).frame⟩
  · exact execWith_ret_of_zero (p := params)

/-- Settles O33: the call leaves `pc` at the return and its own address on top of the stack; the return takes it. -/
theorem callThenReturnResumesAfterTheCall : Obligations.CallThenReturnResumesAfterTheCall := by
  intro s nnn hl hd hp hcall hn hhi hlo
  have target : (zext16 nnn).toNat = nnn.toNat := BitVec.toNat_setWidth_of_le (by decide)
  let t := (s.setEstate .running).afterCall nnn hd
  have call : step s = .next t := by
    rw [step_of_decode hl (fetch16_ok s.mem s.pc hp) hcall, ← execWith_params,
      execWith_call_of_lt (s := s.setEstate .running) nnn hd]
  have bytes : codeOfBytes (t.mem.read t.pc.toNat) (t.mem.read (t.pc.toNat + 1)) = 0x00EE#16 := by
    change codeOfBytes (s.mem.read (zext16 nnn).toNat) (s.mem.read ((zext16 nnn).toNat + 1)) = _
    rw [target, hhi, hlo]; rfl
  have fetch : fetch16 t.mem t.pc = .ok 0x00EE#16 := bytes ▸ fetch16_ok t.mem t.pc (target ▸ hn)
  have ret : step t = .next ((t.setEstate .running).afterRet s.depth.val hd) := by
    rw [step_of_decode (i := .ret) rfl fetch (by decide), ← execWith_params, execWith_ret_of_succ hd rfl]
  have pushed : t.stack[s.depth.val] = s.pc := Vector.getElem_set_self _
  exact ⟨t, _, call, ret, congrArg (· + 2#16) pushed, rfl, rfl, rfl, rfl, rfl⟩

/-! ### Staying put -/

/-- A live engine whose code at `pc` changes nothing stays as it is, but for Ready becoming Running, over any number of
steps. -/
theorem run_of_exec_stays {code : Code} {i : Instr} (n : Nat) (hl : s.live = true) (hf : fetch16 s.mem s.pc = .ok code)
    (hd : decode code = .ok i) (hx : exec i (s.setEstate .running) = .next (s.setEstate .running)) :
    core.run (n + 1) s = .next (s.setEstate .running) := by
  have stays : step (s.setEstate .running) = .next (s.setEstate .running) :=
    (step_of_decode (s := s.setEstate .running) rfl hf hd).trans hx
  have run : core.run n (s.setEstate .running) = .next (s.setEstate .running) := by
    induction n with
    | zero => rfl
    | succ n ih => rw [run_succ n stays, ih]
  rw [run_succ n ((step_of_decode hl hf hd).trans hx), run]

/-- Settles O53: with no key pressed the wait changes nothing, so the engine stays blocked. -/
theorem blockedEngineWaitsUnchanged : Obligations.BlockedEngineWaitsUnchanged := by
  rintro s n ⟨hl, ⟨code, x, hf, hd⟩, hkeys⟩
  have waits : exec (.ldVxK x) (s.setEstate .running) = .next (s.setEstate .running) :=
    execWith_ldVxK_of_none (p := params) ((lowestKey_none s.keys).mpr hkeys)
  refine ⟨run_of_exec_stays n hl hf hd waits, ?_⟩
  rw [transact_step_of_running ((step_of_decode hl hf hd).trans waits) rfl, displayChanged_of_decode hf hd,
    stepDiagnostic_of_decode hl hf hd]
  rfl

/-- Settles O58: a jump to its own address changes nothing. -/
theorem parkedEngineStaysPut : Obligations.ParkedEngineStaysPut := by
  rintro s n ⟨hl, code, nnn, hf, hd, hpc⟩
  have own : zext16 nnn = s.pc := by
    apply BitVec.eq_of_toNat_eq
    rw [BitVec.toNat_setWidth_of_le (by decide), hpc]
  have jumps : exec (.jp nnn) (s.setEstate .running) = .next (s.setEstate .running) := by
    rw [exec, execJp, own]; rfl
  exact run_of_exec_stays n hl hf hd jumps

end Sys2Proof.Machine
end

section
/-! The register and arithmetic family (spec/41_alu.md): copies, logic, and the forms that record a flag. -/

namespace Sys2Proof.Machine

/-- Settles O35: each form writes `V[x]` with the operation on the two bytes, bit by bit, and touches no other register. -/
theorem copyAndLogicTouchNoFlag : Obligations.CopyAndLogicTouchNoFlag := by
  intro x y s
  refine ⟨⟨_, rfl, s.getV_setV_same x _, rfl, s.frame_setV_advance x _⟩, ?or, ?and, ?xor⟩
  case or =>
    refine ⟨_, rfl, fun k => ?_, rfl, s.frame_setV_advance x _⟩
    rw [State.advance_getV, State.getV_setV_same, BitVec.getLsbD_or]
  case and =>
    refine ⟨_, rfl, fun k => ?_, rfl, s.frame_setV_advance x _⟩
    rw [State.advance_getV, State.getV_setV_same, BitVec.getLsbD_and]
  case xor =>
    refine ⟨_, rfl, fun k => ?_, rfl, s.frame_setV_advance x _⟩
    rw [State.advance_getV, State.getV_setV_same, BitVec.getLsbD_xor]

theorem toNat_flagByte (c : Bool) : (flagByte c).toNat = if c then 1 else 0 := by cases c <;> rfl

/-- What a result with a flag leaves: the result unless the destination is `VF`, the flag in any case (R150). -/
theorem flagged_spec (s : State) (x : Reg) (r : Byte) (c : Bool) {value flag : Nat} (hr : r.toNat = value)
    (hc : (if c then 1 else 0) = flag) :
    (x ≠ Reg.vf → ((s.setVFlag x r c).advance.getV x).toNat = value) ∧
      ((s.setVFlag x r c).advance.getV Reg.vf).toNat = flag ∧
      (s.setVFlag x r c).advance.pc = s.pc + 2#16 ∧ s.frame (s.setVFlag x r c).advance { regs := [x, Reg.vf] } := by
  refine ⟨fun hx => ?_, ?_, rfl, s.frame_setVFlag_advance x r c⟩
  · rw [State.advance_getV, State.getV_setVFlag_dst s x r c hx, hr]
  · rw [State.advance_getV, State.getV_setVFlag_vf, toNat_flagByte, hc]

/-- Settles O36: the sum is that of bytes, the flag whether it did not fit. -/
theorem addSetsCarry : Obligations.AddSetsCarry := by
  intro x y s
  exact ⟨_, rfl, flagged_spec s x _ _ (BitVec.toNat_add _ _) (by simp [carryFlag])⟩

theorem toNat_sub_byte (a b : Byte) : (a - b).toNat = (a.toNat + 256 - b.toNat) % 256 := by bv_omega

theorem notBorrowFlag_value (a b : Byte) : (if notBorrowFlag a b then 1 else 0) = if b.toNat > a.toNat then 0 else 1 := by
  by_cases h : b.toNat > a.toNat <;> simp [notBorrowFlag, h]

/-- Settles O37: the difference is that of bytes, the flag whether there was no borrow. -/
theorem subtractionsSetNotBorrow : Obligations.SubtractionsSetNotBorrow := by
  intro x y s
  exact ⟨⟨_, rfl, flagged_spec s x _ _ (toNat_sub_byte _ _) (notBorrowFlag_value _ _)⟩,
    ⟨_, rfl, flagged_spec s x _ _ (toNat_sub_byte _ _) (notBorrowFlag_value _ _)⟩⟩

/-- The bit shifted out to the right is the remainder by 2. -/
theorem shiftedOutRight_value (a : Byte) : (if shiftedOutRight a then 1 else 0) = a.toNat % 2 := by
  rw [shiftedOutRight, BitVec.getLsbD, Nat.testBit_eq_decide_div_mod_eq]
  split <;> simp_all

/-- The bit shifted out to the left is the top bit of the byte. -/
theorem shiftedOutLeft_value (a : Byte) : (if shiftedOutLeft a then 1 else 0) = a.toNat / 128 := by
  rw [shiftedOutLeft, BitVec.getLsbD, Nat.testBit_eq_decide_div_mod_eq]
  split <;> simp_all <;> omega

/-- Settles O38: a shift by one halves or doubles the byte, and the flag is the bit that falls out. -/
theorem shiftsSetTheBitShiftedOut : Obligations.ShiftsSetTheBitShiftedOut := by
  intro x y s
  have halved (a : Byte) : (a >>> 1).toNat = a.toNat / 2 := by simp [Nat.shiftRight_eq_div_pow]
  have doubled (a : Byte) : (a <<< 1).toNat = a.toNat * 2 % 256 := by simp [Nat.shiftLeft_eq]
  exact ⟨⟨_, rfl, flagged_spec s x _ _ (halved _) (shiftedOutRight_value _)⟩,
    ⟨_, rfl, flagged_spec s x _ _ (doubled _) (shiftedOutLeft_value _)⟩⟩

/-- Settles O39: the byte drawn is masked, so no bit outside the mask stands. -/
theorem randomAndMasksAFreeByte : Obligations.RandomAndMasksAFreeByte := by
  intro x nn s
  let t := (s.drawRandom.2.setV x (s.drawRandom.1 &&& nn)).advance
  have value : t.getV x = Config.randomByte s.draws &&& nn := State.getV_setV_same _ x _
  refine ⟨t, rfl, value, ?_, rfl, rfl, s.frame_rnd_advance x _⟩
  rw [value, BitVec.and_assoc]
  simp

end Sys2Proof.Machine
end

section
/-! The index family (spec/42_index_memory.md): add-to-index, the stores and the load. -/

namespace Sys2Proof.Machine

variable {p : Params}

theorem toNat_add_zext16 (i : Word) (b : Byte) : (i + zext16 b).toNat = (i.toNat + b.toNat) % 65536 := by
  rw [BitVec.toNat_add, BitVec.toNat_setWidth_of_le (by decide)]

/-- Settles O41: the 16-bit sum, and its overflow past 0xFFF as a flag when the parameter says so. -/
theorem addToIndexSetsOverflow : Obligations.AddToIndexSetsOverflow := by
  intro x s
  refine ⟨?flag, fun p hp => ?same, fun p hp => ?noFlag⟩
  case flag =>
    refine ⟨_, execWith_addIVx_of_true (p := params) rfl, toNat_add_zext16 _ _, ?_, rfl,
      (completes_addIVx_of_true (p := params) rfl).frame⟩
    rw [State.advance_getV, State.getV_setFlag_vf, toNat_flagByte]
    simp [indexOverflow]
  case same => rw [← execWith_params, execWith_addIVx_of_true hp, execWith_addIVx_of_true rfl]
  case noFlag => exact ⟨_, execWith_addIVx_of_false hp, toNat_add_zext16 _ _, rfl, s.frame_setI_advance _⟩

end Sys2Proof.Machine
end

section
/-! The index family (spec/42_index_memory.md): the two stores and the register load, in bounds, at the bounds and past
them. -/

namespace Sys2Proof.Machine

variable {p : Params} {s : State} {bs : List Byte}

/-! ### Runs of bytes from `I` on -/

/-- Stores in the address space at this model's parameters: what is read back, and that nothing else changes. -/
theorem stores_in_bounds (s : State) (bs : List Byte) (h : s.i.toNat + bs.length ≤ 0x1000) :
    ∃ m, memWriteBytes params s.mem (s.effAddr 0) bs = .ok m ∧
      (∀ k (hk : k < bs.length), 0x50 ≤ s.effAddr k → m.read (s.effAddr k) = bs[k]) ∧
      (∀ a, a < 0x50 → m.read a = s.mem.read a) ∧
      s.frame (s.setMem m) { storeAt := s.effAddr 0, storeLen := bs.length } := by
  obtain ⟨m, hm, stored, others⟩ := memWriteBytes_in params rfl bs s.mem (s.effAddr 0) h
  refine ⟨m, hm, stored, (memWriteBytes_ok hm).1, (s.frame_refl _).setMem fun a ha => others a ?_⟩
  change ¬(s.effAddr 0 ≤ a ∧ a < s.effAddr 0 + bs.length) at ha
  omega

/-- Stores that go past 0xFFF fault when `DATA_OOB` says so: no instruction stores more than 16 bytes, so they start above
the glyph region. -/
theorem stores_out_of_bounds (hp : p.dataOob = .fault) (hne : 0 < bs.length) (hlen : bs.length ≤ 16)
    (h : 0x1000 < s.i.toNat + bs.length) :
    memWriteBytes p s.mem (s.effAddr 0) bs = .error .memoryOutOfBounds :=
  memWriteBytes_out p hp bs s.mem (s.effAddr 0) hne h (by rw [State.effAddr]; omega)

theorem bcdDigits_length (v : Byte) : (bcdDigits v).length = 3 := rfl

/-- The digits stored are the decimal digits of the value (R184). -/
theorem toNat_bcdDigits (v : Byte) (k : Nat) (hk : k < 3) :
    ((bcdDigits v)[k]'(by rw [bcdDigits_length]; exact hk)).toNat = bcdDigit v.toNat k := by
  match k, hk with
  | 0, _ => simp [bcdDigits, bcdDigit]
  | 1, _ => simp [bcdDigits, bcdDigit]
  | 2, _ => simp [bcdDigits, bcdDigit]

/-- The registers stored are `V[0]` to `V[x]` (R185). -/
theorem getElem_readRegs (s : State) (x : Reg) (k : Nat) (hk : k < (readRegs s.v x).length) :
    (readRegs s.v x)[k] = s.getV (BitVec.ofNat 4 k) := by
  have bound : k < 16 := by
    have := x.isLt
    rw [readRegs_length] at hk
    omega
  rw [readRegs_get s.v x k hk bound]
  simp [State.getV, Nat.mod_eq_of_lt bound]

/-- The index after a dump or a load is X + 1 further on, in 16 bits. -/
theorem toNat_indexAfter (i : Word) (x : Reg) : (indexAfter i x).toNat = (i.toNat + x.toNat + 1) % 65536 := by
  rw [indexAfter, BitVec.toNat_ofNat]

/-! ### Store-bcd -/

/-- Settles O42: the three digits are stored from `I` on, or the fault of the first access that may not be made is
raised. -/
theorem storeBcdWritesThreeDigits : Obligations.StoreBcdWritesThreeDigits := by
  intro x s
  have faults (p : Params) (hp : p.dataOob = .fault) (h : 0xFFF < s.i.toNat + 2) :
      execWith p (.ldBVx x) s = .next (s.takeFault .memoryOutOfBounds) :=
    execWith_ldBVx_of_error (stores_out_of_bounds hp (Nat.zero_lt_succ _) (by rw [bcdDigits_length]; omega)
      (by rw [bcdDigits_length]; omega))
  refine ⟨fun h => ?inBounds, faults params rfl, fun p => ⟨faults p, fun ho hg hk => ?glyph, fun ho hg => ?completes⟩⟩
  case inBounds =>
    obtain ⟨m, hm, stored, glyphs, frame⟩ := stores_in_bounds s (bcdDigits (s.getV x)) (by rw [bcdDigits_length]; omega)
    refine ⟨_, execWith_ldBVx_of_ok (p := params) hm, fun k hk ha => ?_, glyphs, rfl, frame.setPc _⟩
    exact (congrArg BitVec.toNat (stored k hk ha)).trans (toNat_bcdDigits _ k hk)
  case glyph =>
    refine execWith_ldBVx_of_error (memWriteBytes_glyph p hg _ s.mem _ (fun hp => ?_) hk)
    have bound := ho hp
    change s.i.toNat + 3 ≤ 0x1000
    omega
  case completes =>
    obtain ⟨m, hm, stored, others⟩ := memWriteBytes_mod p (bcdDigits (s.getV x)) s.mem (s.effAddr 0)
      (by rw [bcdDigits_length]; omega) (fun hp => by have := ho hp; rw [bcdDigits_length, State.effAddr]; omega) hg
    refine ⟨_, execWith_ldBVx_of_ok hm, rfl, fun k hk ha => ?_, others⟩
    exact (congrArg BitVec.toNat (stored k hk ha)).trans (toNat_bcdDigits _ k hk)

/-! ### Register-dump -/

/-- Settles O43: the registers are stored from `I` on, or the fault of the first access that may not be made is raised;
`I` moves on only with the stores. -/
theorem registerDumpStoresRegisters : Obligations.RegisterDumpStoresRegisters := by
  intro x s
  have len := readRegs_length s.v x
  have few := x.isLt
  have register (m : Memory) (a : Nat) (k : Reg) (hk : k.toNat ≤ x.toNat)
      (h : m.read a = (readRegs s.v x)[k.toNat]'(by omega)) : m.read a = s.getV k := by
    rw [h, getElem_readRegs, BitVec.ofNat_toNat, BitVec.setWidth_eq]
  have faults (p : Params) (hp : p.dataOob = .fault) (h : 0xFFF < s.i.toNat + x.toNat) :
      execWith p (.ldIVx x) s = .next (s.takeFault .memoryOutOfBounds) :=
    execWith_ldIVx_of_error (stores_out_of_bounds hp (by omega) (by omega) (by omega))
  refine ⟨fun h => ?inBounds, faults params rfl, fun p => ⟨faults p, fun ho hg hk => ?glyph, fun ho hg => ?completes⟩⟩
  case inBounds =>
    obtain ⟨m, hm, stored, glyphs, frame⟩ := stores_in_bounds s (readRegs s.v x) (by omega)
    rw [len] at frame
    have frame' : s.frame (s.setMem m) { index := true, storeAt := s.effAddr 0, storeLen := x.toNat + 1 } :=
      { frame with index := nofun }
    exact ⟨_, execWith_ldIVx_of_ok (p := params) hm, fun k hk ha => register m _ k hk (stored k.toNat (by omega) ha), glyphs,
      toNat_indexAfter s.i x, rfl, (frame'.setI rfl _).setPc _⟩
  case glyph =>
    obtain ⟨k, hk, ha⟩ := hk
    refine execWith_ldIVx_of_error (memWriteBytes_glyph p hg _ s.mem _ (fun hp => ?_) ⟨k, by omega, ha⟩)
    have bound := ho hp
    rw [len, State.effAddr]
    omega
  case completes =>
    obtain ⟨m, hm, stored, others⟩ := memWriteBytes_mod p (readRegs s.v x) s.mem (s.effAddr 0) (by omega)
      (fun hp => by have := ho hp; rw [len, State.effAddr]; omega) (fun hp k hk => hg hp k (by omega))
    exact ⟨_, execWith_ldIVx_of_ok hm, rfl, fun k hk ha => register m _ k hk (stored k.toNat (by omega) ha),
      fun a ha => others a (ha.imp_right fun h k hk => h k (by omega))⟩

/-! ### Register-load -/

/-- Settles O44: the registers up to `V[x]` are the bytes read, the others are kept; a read past 0xFFF faults when
`DATA_OOB` says so. -/
theorem registerLoadFillsRegisters : Obligations.RegisterLoadFillsRegisters := by
  intro x s
  have faults (p : Params) (hp : p.dataOob = .fault) (h : 0xFFF < s.i.toNat + x.toNat) :
      execWith p (.ldVxI x) s = .next (s.takeFault .memoryOutOfBounds) :=
    execWith_ldVxI_of_error (memReadBytes_out p s.mem _ _ (by omega) (by rw [State.effAddr]; omega) hp)
  have loads (p : Params) (h : p.dataOob = .fault → s.i.toNat + x.toNat ≤ 0xFFF) :
      ∃ t, execWith p (.ldVxI x) s = .next t ∧
        t = { s with v := t.v, i := indexAfter s.i x, pc := s.pc + 2#16 } ∧
        (∀ k : Reg, t.getV k = if k.toNat ≤ x.toNat then s.mem.read (s.effAddr k.toNat % 4096) else s.getV k) ∧
        Instr.Completes p s t (.ldVxI x) := by
    have read := memReadBytes_mod p s.mem (x.toNat + 1) (s.effAddr 0)
      (fun hp => .inr (by have := h hp; rw [State.effAddr]; omega))
    refine ⟨_, execWith_ldVxI_of_ok read, rfl, fun k => ?_, completes_ldVxI read⟩
    rw [State.advance_getV, State.setI_getV, State.getV_loadRegs]
    simp [State.effAddr]
  refine ⟨fun h => ?inBounds, faults params rfl, fun p => ⟨faults p, fun h => ?completes⟩⟩
  case inBounds =>
    obtain ⟨t, ht, fields, loaded, done⟩ := loads params fun _ => h
    refine ⟨t, ht, fun k hk => ?_, ?_, ?_, done.frame⟩
    · rw [loaded k, if_pos hk, Nat.mod_eq_of_lt (by rw [State.effAddr]; omega)]
    · rw [fields]; exact toNat_indexAfter s.i x
    · rw [fields]
  case completes =>
    obtain ⟨t, ht, fields, loaded, -⟩ := loads p h
    exact ⟨t, ht, fields, loaded⟩

theorem State.v_eq_of_getV_eq {s t : State} (h : ∀ z, t.getV z = s.getV z) : t.v = s.v := by
  apply Vector.ext
  intro k hk
  have here := h (BitVec.ofNat 4 k)
  simpa [State.getV, Nat.mod_eq_of_lt hk] using here

/-- Settles O45: the load reads the registers the dump stored; the others neither of them writes. -/
theorem dumpThenLoadGivesRegistersBack : Obligations.DumpThenLoadGivesRegistersBack := by
  intro x s hglyph h
  obtain ⟨t, ht, stored, -, hi, -, frame⟩ := (registerDumpStoresRegisters x s).1 h
  obtain ⟨u, hu, loaded, hui, -, uframe⟩ := (registerLoadFillsRegisters x { t with i := s.i }).1 h
  have back (z : Reg) : u.getV z = s.getV z := by
    by_cases hz : z.toNat ≤ x.toNat
    · exact (loaded z hz).trans (stored z hz (by rw [State.effAddr]; omega))
    · exact (uframe.regs z (mt mem_regsUpTo.mp hz)).trans (frame.regs z List.not_mem_nil)
  exact ⟨t, u, ht, hu, State.v_eq_of_getV_eq back, by omega, BitVec.eq_of_toNat_eq (hui.trans hi.symm)⟩

/-! ### Stored code -/

/-- Settles O9: the fetch reads the two bytes that the store left at `I + k` and `I + k + 1`. -/
theorem fetchSeesStoredBytes : Obligations.FetchSeesStoredBytes := by
  intro x s k hglyph
  have fetch (t : State) (hk : s.effAddr k + 1 ≤ 0xFFF) :
      fetch16 t.mem (BitVec.ofNat 16 (s.effAddr k)) =
        .ok (codeOfBytes (t.mem.read (s.effAddr k)) (t.mem.read (s.effAddr (k + 1)))) := by
    have pc : (BitVec.ofNat 16 (s.effAddr k)).toNat = s.effAddr k := by
      rw [BitVec.toNat_ofNat]
      omega
    have := fetch16_ok t.mem (BitVec.ofNat 16 (s.effAddr k)) (by omega)
    rwa [pc] at this
  have above (j : Nat) : 0x50 ≤ s.effAddr j := by rw [State.effAddr]; omega
  constructor
  · intro hk h
    obtain ⟨t, ht, stored, -⟩ := (registerDumpStoresRegisters x s).1 h
    have register (j : Nat) (hj : j ≤ x.toNat) : t.mem.read (s.effAddr j) = s.getV (BitVec.ofNat 4 j) := by
      have bound := x.isLt
      have index : (BitVec.ofNat 4 j).toNat = j := by
        rw [BitVec.toNat_ofNat]
        omega
      have := stored (BitVec.ofNat 4 j) (by omega) (above _)
      rwa [index] at this
    refine ⟨t, ht, ?_⟩
    rw [fetch t (by rw [State.effAddr]; omega), register k (by omega), register (k + 1) (by omega)]
  · intro hk h
    obtain ⟨t, ht, stored, -⟩ := (storeBcdWritesThreeDigits x s).1 h
    refine ⟨t, _, ht, fetch t (by rw [State.effAddr]; omega), ?_⟩
    rw [codeOfBytes_toNat, stored k (by omega) (above k), stored (k + 1) (by omega) (above _)]

end Sys2Proof.Machine
end

section
/-! The display family (spec/43_display.md): draw-sprite under both edge modes, once and twice. -/

namespace Sys2Proof.Machine

variable {p : Params} {s : State}

/-! ### One draw -/

/-- The rows of the sprite at `I` (R212). -/
def State.spriteRows (s : State) (n : Nat) : List Byte :=
  (List.range n).map fun r => s.mem.read ((s.i.toNat + r) % 4096)

/-- The rows are what draw-sprite reads, unless `DATA_OOB` makes it fault. -/
theorem memReadBytes_spriteRows (n : Nibble)
    (h : p.dataOob = .fault → n.toNat = 0 ∨ s.i.toNat + n.toNat - 1 ≤ 0xFFF) :
    memReadBytes p s.mem (s.effAddr 0) n.toNat = .ok (s.spriteRows n.toNat) :=
  memReadBytes_mod p s.mem n.toNat (s.effAddr 0) fun hp => (h hp).imp_right fun h => by rw [State.effAddr]; omega

/-- The sprite covers exactly the pixels that the loops of draw-sprite plot. -/
theorem spriteCovers_iff (e : DrawEdge) (x0 y0 : Byte) (n px py : Nat) :
    s.spriteCovers e x0 y0 n px py ↔ (px, py) ∈ spritePoints e x0 y0 0 (s.spriteRows n) := by
  rw [mem_spritePoints]
  simp only [State.spriteCovers, State.spriteRows, edge_eq_some, List.length_map, List.length_range, List.getElem_map,
    List.getElem_range, Nat.zero_add]
  constructor
  · rintro ⟨row, col, hrow, hcol, hbit, hfalls⟩
    exact ⟨row, hrow, col, hcol, hbit, hfalls⟩
  · rintro ⟨row, hrow, col, hcol, hbit, hfalls⟩
    exact ⟨row, col, hrow, hcol, hbit, hfalls⟩

section
variable (s : State) (e : DrawEdge) (x y : Reg) (n : Nibble)

/-- The state that drawing the sprite of `n` rows at `I` leaves. -/
def State.drawn : State := s.drawSprite e x y (s.spriteRows n.toNat)

/-- The pixels `n` rows at `I` cover, drawn at (`V[x]`, `V[y]`). -/
def State.covered (px py : Nat) : Prop := s.spriteCovers e (s.getV x) (s.getV y) n.toNat px py

theorem spriteRows_length_le : (s.spriteRows n.toNat).length ≤ 32 := by
  have bound := n.isLt
  rw [State.spriteRows, List.length_map, List.length_range]
  omega

/-- A covered pixel is flipped. -/
theorem pixel_drawn_of_covered {px py : Nat} (h : s.covered e x y n px py) :
    Display.pixel (s.drawn e x y n).display px py = !Display.pixel s.display px py := by
  have flips := (drawRows_spec e (s.getV x) (s.getV y) _ s.display (spriteRows_length_le s n)).1 px py
  exact flips.trans (by rw [decide_eq_true ((spriteCovers_iff ..).mp h), Bool.xor_true])

/-- Any other pixel is kept. -/
theorem pixel_drawn_of_not_covered {px py : Nat} (h : ¬s.covered e x y n px py) :
    Display.pixel (s.drawn e x y n).display px py = Display.pixel s.display px py := by
  have flips := (drawRows_spec e (s.getV x) (s.getV y) _ s.display (spriteRows_length_le s n)).1 px py
  exact flips.trans (by rw [decide_eq_false (mt (spriteCovers_iff ..).mpr h), Bool.xor_false])

/-- `VF` is the collision: whether a covered pixel was set. -/
theorem getV_drawn_vf : ∃ c : Bool, (s.drawn e x y n).getV Reg.vf = flagByte c ∧
    (c = true ↔ ∃ px py, s.covered e x y n px py ∧ Display.pixel s.display px py = true) := by
  have collides := (drawRows_spec e (s.getV x) (s.getV y) _ s.display (spriteRows_length_le s n)).2
  refine ⟨_, State.getV_setFlag_vf _ _, collides.trans ?_⟩
  simp only [Prod.exists, State.covered, spriteCovers_iff]

theorem getV_drawn_vf_eq_one_iff : (s.drawn e x y n).getV Reg.vf = 1#8 ↔
    ∃ px py, s.covered e x y n px py ∧ Display.pixel s.display px py = true := by
  obtain ⟨c, hv, hc⟩ := getV_drawn_vf s e x y n
  rw [hv, ← hc]
  cases c <;> decide

theorem getV_drawn_vf_eq_zero_iff : (s.drawn e x y n).getV Reg.vf = 0#8 ↔
    ¬∃ px py, s.covered e x y n px py ∧ Display.pixel s.display px py = true := by
  obtain ⟨c, hv, hc⟩ := getV_drawn_vf s e x y n
  rw [hv, ← hc]
  cases c <;> decide

theorem getV_drawn_ne {z : Reg} (hz : z ≠ Reg.vf) : (s.drawn e x y n).getV z = s.getV z :=
  State.getV_setFlag_ne _ _ z hz

end

/-- Draw-sprite leaves the drawn state when its reads raise no fault. -/
theorem execWith_drw (x y : Reg) (n : Nibble)
    (h : p.dataOob = .fault → n.toNat = 0 ∨ s.i.toNat + n.toNat - 1 ≤ 0xFFF) :
    execWith p (.drw x y n) s = .next (s.drawn p.drawEdge x y n) :=
  execWith_drw_of_ok (memReadBytes_spriteRows n h)

/-- Settles O48: the pixels plotted are those covered, in either mode. -/
theorem bothEdgeModesFlipWhatTheyCover : Obligations.BothEdgeModesFlipWhatTheyCover := by
  intro p x y n s h
  refine ⟨_, execWith_drw x y n h, fun px py _ _ =>
    ⟨pixel_drawn_of_covered s p.drawEdge x y n, pixel_drawn_of_not_covered s p.drawEdge x y n⟩, ?_,
    getV_drawn_vf_eq_one_iff s p.drawEdge x y n⟩
  rw [getV_drawn_vf_eq_one_iff, getV_drawn_vf_eq_zero_iff]
  exact Classical.em _

/-- Settles O47: the same at this model's parameters, with the frame and the fault. -/
theorem drawSpriteFlipsWhatItCovers : Obligations.DrawSpriteFlipsWhatItCovers := by
  intro x y n s
  have faults (p : Params) (hp : p.dataOob = .fault) (hn : n.toNat ≠ 0) (h : 0xFFF < s.i.toNat + n.toNat - 1) :
      execWith p (.drw x y n) s = .next (s.takeFault .memoryOutOfBounds) :=
    execWith_drw_of_error (memReadBytes_out p s.mem _ _ (by omega) (by rw [State.effAddr]; omega) hp)
  refine ⟨fun h => ?inBounds, faults params rfl, fun p => ⟨faults p, fun h => ?completes⟩⟩
  case inBounds =>
    exact ⟨_, execWith_drw (p := params) x y n fun _ => h, fun px py _ _ =>
      ⟨pixel_drawn_of_covered s .wrap x y n, pixel_drawn_of_not_covered s .wrap x y n⟩,
      (getV_drawn_vf_eq_one_iff s .wrap x y n).mpr, (getV_drawn_vf_eq_zero_iff s .wrap x y n).mpr, rfl, rfl,
      (completes_drw (p := params) .wrap x y n _).frame⟩
  case completes =>
    exact ⟨_, execWith_drw x y n h, rfl, fun z hz => getV_drawn_ne s p.drawEdge x y n hz⟩

/-! ### Two draws -/

/-- A draw keeps the sprite and its place, so the second covers the same pixels. -/
theorem covered_drawn (s : State) (e : DrawEdge) {x y : Reg} (n : Nibble) (hx : x ≠ Reg.vf) (hy : y ≠ Reg.vf)
    (px py : Nat) : (s.drawn e x y n).covered e x y n px py ↔ s.covered e x y n px py := by
  rw [State.covered, getV_drawn_ne s e x y n hx, getV_drawn_ne s e x y n hy]
  rfl

/-- Flipping the covered pixels twice restores them. -/
theorem display_drawn_drawn (s : State) (e : DrawEdge) {x y : Reg} (n : Nibble) (hx : x ≠ Reg.vf) (hy : y ≠ Reg.vf) :
    ((s.drawn e x y n).drawn e x y n).display = s.display := by
  apply Display.ext_pixel
  intro px py _ _
  by_cases h : s.covered e x y n px py
  · rw [pixel_drawn_of_covered _ e x y n ((covered_drawn s e n hx hy px py).mpr h), pixel_drawn_of_covered s e x y n h,
      Bool.not_not]
  · rw [pixel_drawn_of_not_covered _ e x y n (mt (covered_drawn s e n hx hy px py).mp h),
      pixel_drawn_of_not_covered s e x y n h]

/-- Settles O49: the second draw flips the same pixels back, and meets as set those the first turned on. -/
theorem drawingTwiceRestoresTheDisplay : Obligations.DrawingTwiceRestoresTheDisplay := by
  intro p x y n s hx hy h
  let e := p.drawEdge
  refine ⟨_, _, execWith_drw x y n h, execWith_drw (s := s.drawn e x y n) x y n h, display_drawn_drawn s e n hx hy, ?_⟩
  have turnedOn (px py : Nat) : s.covered e x y n px py ∧ Display.pixel (s.drawn e x y n).display px py = true ↔
      Display.pixel s.display px py = false ∧ Display.pixel (s.drawn e x y n).display px py = true := by
    by_cases hc : s.covered e x y n px py
    · simp [hc, pixel_drawn_of_covered s e x y n hc]
    · simp [hc, pixel_drawn_of_not_covered s e x y n hc]
  rw [getV_drawn_vf_eq_one_iff]
  simp only [covered_drawn s e n hx hy, e, turnedOn]

end Sys2Proof.Machine
end

section
/-! The key family (spec/44_timers_input.md): the key skips and the wait for a key. -/

namespace Sys2Proof.Machine

variable {p : Params} {s : State}

/-- Above 15 the key index is the low nibble when `KEY_INDEX_OOB` says so; below, it is the value and its own low nibble. -/
theorem keyIndex_lowNibble (b : Byte) (k : Fin 16) (h : b.toNat % 16 = k.val) (hp : p.keyIndexOob = .lowNibble) :
    keyIndex p b = .ok k := by
  by_cases hb : b.toNat < 16
  · exact keyIndex_in p b k (by omega)
  · rw [keyIndex, dif_neg hb, hp]
    exact congrArg _ (Fin.ext h)

/-- The key skips once the key is known. -/
theorem keySkips_of_keyIndex {x : Reg} {k : Fin 16} (h : keyIndex p (s.getV x) = .ok k) :
    execWith p (.skp x) s = .next { s with pc := s.pc + (if s.keys[k] = true then 4#16 else 2#16) } ∧
    execWith p (.sknp x) s = .next { s with pc := s.pc + (if s.keys[k] = false then 4#16 else 2#16) } := by
  rw [execWith_skp_of_ok h, execWith_sknp_of_ok h, s.skipIf_eq_of_iff Iff.rfl,
    s.skipIf_eq_of_iff (P := s.keys[k] = false) (by simp)]
  exact ⟨rfl, rfl⟩

/-- The key skips depend on the parameters only through the key index. -/
theorem keySkips_congr {p q : Params} {x : Reg} (h : keyIndex p (s.getV x) = keyIndex q (s.getV x)) :
    execWith p (.skp x) s = execWith q (.skp x) s ∧ execWith p (.sknp x) s = execWith q (.sknp x) s := by
  constructor
  · exact congrArg (s.skipOnKey · id) h
  · exact congrArg (s.skipOnKey · not) h

/-- Settles O50: the key index decides, and above 15 it is a fault or the low nibble. -/
theorem keySkipsReadTheKey : Obligations.KeySkipsReadTheKey := by
  intro x s
  refine ⟨fun k hk => ?inRange, fun h => ?outOfRange, fun p hp => ?fault, fun p k hp hk => ?lowNibble⟩
  case inRange => exact keySkips_of_keyIndex (keyIndex_in params (s.getV x) k hk)
  case outOfRange =>
    have out := keyIndex_out params (s.getV x) h rfl
    exact ⟨execWith_skp_of_error out, execWith_sknp_of_error out⟩
  case fault =>
    have same : keyIndex p (s.getV x) = keyIndex params (s.getV x) := by
      rw [keyIndex, keyIndex, hp]; rfl
    exact keySkips_congr same
  case lowNibble => exact keySkips_of_keyIndex (keyIndex_lowNibble (s.getV x) k hk hp)

/-- Settles O52: the wait is decided by the lowest pressed key, if there is one. -/
theorem waitForKeyTakesTheLowestKey : Obligations.WaitForKeyTakesTheLowestKey := by
  intro x s
  constructor
  · intro h
    exact execWith_ldVxK_of_none (p := params) ((lowestKey_none s.keys).mpr h)
  · intro k hk lower
    have lowest : lowestKey s.keys = some k.val :=
      (lowestKey_some s.keys k.val).mpr ⟨k.isLt, hk, fun j hj => lower ⟨j, by omega⟩ hj⟩
    refine ⟨_, execWith_ldVxK_of_some (p := params) lowest, ?_, rfl, s.frame_setV_advance x _⟩
    rw [State.advance_getV, State.getV_setV_same, BitVec.toNat_ofNat]
    omega

end Sys2Proof.Machine
end

section
/-! No instruction reads the sound timer or the redraw flag (spec/10_state.md R32, R34). -/

namespace Sys2Proof.Machine

variable {s : State}

/-- The state with another sound timer and redraw flag. -/
def State.withUnread (s : State) (b : Byte) (f : Bool) : State := { s with st := b, drawPending := f }

/-- Outcomes that differ in the two unread fields only. -/
def AgreesButUnread (r r' : Result) : Prop :=
  ∃ t t', r = .next t ∧ r' = .next t' ∧ { t' with st := t.st, drawPending := t.drawPending } = t

theorem agrees_skipIf (s : State) (b : Byte) (f c : Bool) :
    AgreesButUnread (.next (s.skipIf c)) (.next ((s.withUnread b f).skipIf c)) := by
  cases c <;> exact ⟨_, _, rfl, rfl, rfl⟩

/-- An instruction takes the same branch at both states, for its condition reads neither field. -/
theorem execWith_agrees (p : Params) (i : Instr) (s : State) (b : Byte) (f : Bool) :
    AgreesButUnread (execWith p i s) (execWith p i (s.withUnread b f)) := by
  cases i
  case ret =>
    cases hd : s.depth.val with
    | zero => exact ⟨_, _, execWith_ret_of_zero hd, execWith_ret_of_zero hd, rfl⟩
    | succ d =>
      have lt : d < 16 := by omega
      exact ⟨_, _, execWith_ret_of_succ lt hd, execWith_ret_of_succ lt hd, rfl⟩
  case call a =>
    by_cases hd : s.depth.val < 16
    · exact ⟨_, _, execWith_call_of_lt a hd, execWith_call_of_lt (s := s.withUnread b f) a hd, rfl⟩
    · have full : s.depth.val = 16 := by omega
      exact ⟨_, _, execWith_call_of_full a full, execWith_call_of_full a full, rfl⟩
  case seImm | sneImm | seReg | sneReg => exact agrees_skipIf s b f _
  case skp x =>
    cases hk : keyIndex p (s.getV x) with
    | ok k =>
      rw [execWith_skp_of_ok hk, execWith_skp_of_ok (s := s.withUnread b f) hk]
      exact agrees_skipIf s b f _
    | error k => exact ⟨_, _, execWith_skp_of_error hk, execWith_skp_of_error (s := s.withUnread b f) hk, rfl⟩
  case sknp x =>
    cases hk : keyIndex p (s.getV x) with
    | ok k =>
      rw [execWith_sknp_of_ok hk, execWith_sknp_of_ok (s := s.withUnread b f) hk]
      exact agrees_skipIf s b f _
    | error k => exact ⟨_, _, execWith_sknp_of_error hk, execWith_sknp_of_error (s := s.withUnread b f) hk, rfl⟩
  case ldVxK x =>
    cases hk : lowestKey s.keys with
    | some k => exact ⟨_, _, execWith_ldVxK_of_some hk, execWith_ldVxK_of_some (s := s.withUnread b f) hk, rfl⟩
    | none => exact ⟨_, _, execWith_ldVxK_of_none hk, execWith_ldVxK_of_none (s := s.withUnread b f) hk, rfl⟩
  case addIVx x =>
    cases hf : p.addISetsVf with
    | true => exact ⟨_, _, execWith_addIVx_of_true hf, execWith_addIVx_of_true hf, rfl⟩
    | false => exact ⟨_, _, execWith_addIVx_of_false hf, execWith_addIVx_of_false hf, rfl⟩
  case drw x y n =>
    cases hr : memReadBytes p s.mem (s.effAddr 0) n.toNat with
    | ok rows => exact ⟨_, _, execWith_drw_of_ok hr, execWith_drw_of_ok (s := s.withUnread b f) hr, rfl⟩
    | error k => exact ⟨_, _, execWith_drw_of_error hr, execWith_drw_of_error (s := s.withUnread b f) hr, rfl⟩
  case ldVxI x =>
    cases hr : memReadBytes p s.mem (s.effAddr 0) (x.toNat + 1) with
    | ok bs => exact ⟨_, _, execWith_ldVxI_of_ok hr, execWith_ldVxI_of_ok (s := s.withUnread b f) hr, rfl⟩
    | error k => exact ⟨_, _, execWith_ldVxI_of_error hr, execWith_ldVxI_of_error (s := s.withUnread b f) hr, rfl⟩
  case ldBVx x =>
    cases hw : memWriteBytes p s.mem (s.effAddr 0) (bcdDigits (s.getV x)) with
    | ok m => exact ⟨_, _, execWith_ldBVx_of_ok hw, execWith_ldBVx_of_ok (s := s.withUnread b f) hw, rfl⟩
    | error k => exact ⟨_, _, execWith_ldBVx_of_error hw, execWith_ldBVx_of_error (s := s.withUnread b f) hw, rfl⟩
  case ldIVx x =>
    cases hw : memWriteBytes p s.mem (s.effAddr 0) (readRegs s.v x) with
    | ok m => exact ⟨_, _, execWith_ldIVx_of_ok hw, execWith_ldIVx_of_ok (s := s.withUnread b f) hw, rfl⟩
    | error k => exact ⟨_, _, execWith_ldIVx_of_error hw, execWith_ldIVx_of_error (s := s.withUnread b f) hw, rfl⟩
  all_goals exact ⟨_, _, rfl, rfl, rfl⟩

/-- Settles O27: the same branch is taken, and what it writes does not depend on the two fields. -/
theorem noInstructionReadsSoundTimerOrRedrawFlag : Obligations.NoInstructionReadsSoundTimerOrRedrawFlag := by
  intro i s b f
  have agrees := execWith_agrees params i s b f
  rw [execWith_params, execWith_params] at agrees
  exact agrees

end Sys2Proof.Machine
end

section
/-! The host's operations (spec/60_exceptions.md sections 5 to 7, spec/70_reset_and_hazards.md), and the parameters. -/

namespace Sys2Proof.Machine

/-- Settles O54: reset leaves the reset state but for the keys and the draw counter. -/
theorem resetLeavesTheResetState : Obligations.ResetLeavesTheResetState := by
  intro s
  have zeroReg (z : Reg) : (hostReset s).getV z = 0#8 := by simp [State.getV, hostReset, State.reset]
  have zeroEntry (k : Fin 16) : (hostReset s).stack[k] = 0#16 := by simp [hostReset, State.reset]
  have glyph (k : Nat) (h : k < 80) : ∃ b, glyphRom[k]? = some b ∧ (hostReset s).mem.read k = b := by
    have inTable : k < glyphRom.length := h
    refine ⟨glyphRom[k], List.getElem?_eq_getElem inTable, ?_⟩
    change glyphRom.getD k 0 = _
    rw [List.getD_eq_getElem _ _ inTable]
  have zeroByte (a : Nat) (h : 80 ≤ a) : (hostReset s).mem.read a = 0#8 :=
    List.getD_eq_default _ _ h
  exact ⟨hostReset s, rfl, zeroReg, rfl, zeroEntry, rfl, glyph, zeroByte, Display.pixel_clear, rfl, rfl, rfl, rfl, rfl, rfl,
    rfl, rfl, rfl⟩

/-- Settles O55: a program that fits is stored at 0x200 of the reset state, a longer one is not. -/
theorem loadCopiesTheProgram : Obligations.LoadCopiesTheProgram := by
  intro bytes s
  constructor
  · intro h
    exact ⟨_, transact_load_of_le s h, rfl, rfl, fun k hk => Memory.read_storeBytes_in bytes _ _ k hk,
      fun a ha => Memory.read_storeBytes_out bytes _ _ a ha, rfl⟩
  · exact transact_load_of_gt s

/-- In every other state than Uninitialized an operation is not refused (R285). -/
theorem whenInitialized_of_ne {s : State} (h : s.estate ≠ .uninitialized) (r : State × Response) :
    whenInitialized s r = .ok r := by
  rw [whenInitialized, if_neg h]

theorem tickDelay_spec (s : State) :
    (tickDelay s).dt.toNat = s.dt.toNat - 1 ∧ tickDelay s = { s with dt := (tickDelay s).dt } := by
  rw [tickDelay]
  split
  · exact ⟨by rw [State.setDt_dt]; bv_omega, rfl⟩
  · exact ⟨by omega, rfl⟩

theorem tickSound_spec (s : State) :
    (tickSound s).st.toNat = s.st.toNat - 1 ∧ tickSound s = { s with st := (tickSound s).st } := by
  rw [tickSound]
  split
  · exact ⟨by rw [State.setSt_st]; bv_omega, rfl⟩
  · exact ⟨by omega, rfl⟩

/-- Settles O56: a tick takes 1 from a positive timer, which is what the subtraction of naturals says. -/
theorem ticksDecrementIfPositive : Obligations.TicksDecrementIfPositive := by
  intro s h
  exact ⟨⟨_, whenInitialized_of_ne h _, tickDelay_spec s⟩, ⟨_, whenInitialized_of_ne h _, tickSound_spec s⟩⟩

/-- Settles O57: each operation writes or reads the field it names. -/
theorem otherHostOperations : Obligations.OtherHostOperations := by
  intro s
  refine ⟨fun k p => ⟨setKeyPressed k p s, rfl, ?key, fun j hj => ?otherKeys, rfl⟩, fun h => whenInitialized_of_ne h _,
    fun h => ⟨whenInitialized_of_ne h _, fun x y hx hy => ?bit⟩, ⟨statusRead s, rfl, rfl, rfl, rfl, rfl, ?sound⟩⟩
  case key => exact Vector.getElem_set_self _
  case otherKeys => exact Vector.getElem_set_ne k.isLt j.isLt fun h => hj (Fin.ext h.symm)
  case bit =>
    have column : (y * 64 + x) % 64 = x := by omega
    have row : (y * 64 + x) / 64 = y := by omega
    rw [snapshotBit, column, row]
  case sound =>
    change (s.st != 0#8) = true ↔ _
    rw [bne_iff_ne, ne_eq, ne_eq, ← BitVec.toNat_inj]
    rfl

/-- The default glyphs are what unlisted addresses read as, so storing them lists nothing (D19). -/
theorem storeBytes_glyphRom : Memory.storeBytes [] 0 (glyphRom.take glyphEnd) = [] := by decide

/-- Settles O59: the named parameters enter by seven instructions, the decoder and the glyphs, each the same at this
model's parameters. -/
theorem namedParametersAgreeWithTheMachine : Obligations.NamedParametersAgreeWithTheMachine := by
  have reset (s : State) : hostResetWith params s = hostReset s :=
    congrArg (hostReset s).setMem storeBytes_glyphRom
  refine ⟨execWith_params, stepWith_params, reset, fun bytes s => ?_⟩
  rw [hostLoadWith, hostLoad, reset]

end Sys2Proof.Machine
end
